-- ==== Sys2Proof/Word.lean ====
section
/-! DEFINITION. The word, byte and bit-string types. -/

namespace Sys2Proof

/-- The 32-bit machine word, bit 31 most significant (R8). -/
abbrev Word := BitVec 32

/-- One character of a string output on the ports (R25, decision D9). -/
abbrev Byte := BitVec 8

/-- A bit string (R8): the characters '0' (`false`) and '1' (`true`), most significant first,
character 0 at the head. -/
abbrev BitString := List Bool

end Sys2Proof
end

