-- ==== Sys2Proof/Machine/Bits.lean ====
section
/-! DEFINITION. The primitives of rules R9 and R10 on bit strings and integers, and the normalisation of
rules R46 to R48. -/

namespace Sys2Proof

/-- `val(s)` (R9): the unsigned integer a bit string denotes. -/
def val (s : BitString) : Nat := s.foldl (fun n b => 2 * n + b.toNat) 0

/-- `bin(w, n)` (R9): the bit string of length `w` whose value is `n`, for `n < 2^w`; in general the low `w`
bits of `n`. -/
def bin : Nat → Nat → BitString
  | 0, _ => []
  | w + 1, n => n.testBit w :: bin w n

/-- `low(w, v)` (R10): the low `w` bits of the two's-complement representation of `v`, with the floor
modulus of R9 (never negative). -/
def low (w : Nat) (v : Int) : BitString := bin w (v % ((2 ^ w : Nat) : Int)).toNat

/-- `left(s, n)` (R9): the first `n` characters. -/
def left (s : BitString) (n : Nat) : BitString := s.take n

/-- `right(s, n)` (R9): the last `n` characters. -/
def right (s : BitString) (n : Nat) : BitString := s.drop (s.length - n)

/-- `norm(w, s)` of the spec (R48): zero-pad on the left (R46), or keep the rightmost `w` characters (R47). -/
def normalise (w : Nat) (s : BitString) : BitString :=
  if s.length < w then List.replicate (w - s.length) false ++ s else right s w

/-- The slice of `len` characters from character `start` (R62). -/
def slice (s : BitString) (start len : Nat) : BitString := (s.drop start).take len

/-- The character of a bit (R8). -/
def charOfBit (b : Bool) : Char := if b then '1' else '0'

/-- The bit of a character; no other character is one of a bit string (R22). -/
def bitOfChar (c : Char) : Option Bool :=
  if c = '0' then some false else if c = '1' then some true else none

/-- The bit string a character string spells, if it holds '0' and '1' only (R110). -/
def bitsOfChars : List Char → Option BitString
  | [] => some []
  | c :: cs =>
    match bitOfChar c, bitsOfChars cs with
    | some b, some bs => some (b :: bs)
    | _, _ => none

/-- The bits of a character string, any character but '1' read as 0; for strings inside the contract it is
what they spell. -/
def bitsOrZero (cs : List Char) : BitString := cs.map fun c => c == '1'

end Sys2Proof
end

