-- ==== Sys2Proof/Config.lean ====
section
/-! DEFINITION. The constants of rule R6 and the numeric build-time parameters of rule R7. No value is
left free: 93_implementation_defined.md settles every open point by a refusal or by one fixed value. The port codes
`FMT_CODE` and `CAT_CODE` stand with the functions that use them (Decode.lean, Machine/Ports.lean). -/

namespace Sys2Proof.Config

/-- `WORD_W` (R6): bits of the machine word, characters of `binary`. -/
@[simp] abbrev wordWidth : Nat := 32
/-- `REG_W` (R6): width of a rendered register field. -/
@[simp] abbrev regWidth : Nat := 5
/-- `OPCODE_W` (R6). -/
@[simp] abbrev opcodeWidth : Nat := 7
/-- `FUNCT3_W` (R6). -/
@[simp] abbrev funct3Width : Nat := 3
/-- `FUNCT7_W` (R6). -/
@[simp] abbrev funct7Width : Nat := 7
/-- `IMM_HI_W` (R6): the upper immediate group of formats S and B. -/
@[simp] abbrev immHiWidth : Nat := 7
/-- `IMM_LO_W` (R6): the lower immediate group of formats S and B. -/
@[simp] abbrev immLoWidth : Nat := 5
/-- `HEX_DIGITS` (R6): digits after the `0x` prefix. -/
@[simp] abbrev hexDigits : Nat := 8
/-- `NREGS` (R6): a register reference ranges over [0,31]. -/
@[simp] abbrev registers : Nat := 32
/-- `IMM_W` (R7, decision D6): width of the two's-complement immediate port. -/
@[simp] abbrev immPortWidth : Nat := 32
/-- `MAX_FIELDS` (R7, decision D13): field slots on the decomposer port. -/
@[simp] abbrev maxFields : Nat := 6

end Sys2Proof.Config
end

