-- ==== Sys2Proof/Syntax.lean ====
section
/-! DEFINITION. Requests as a caller presents them, and the instructions: one constructor of `Instr` per row
of spec/opcode_table.json. Operands are held as the caller holds them, out-of-contract values included; the contract
(R66, R110) is a check over them (WellFormed.lean, Machine/Operands.lean), so that a refusal can be said. -/

namespace Sys2Proof

/-- The closed enumeration of formats (R20). -/
inductive InstructionFormat where
  | R | I | S | B | U | J
  deriving DecidableEq, Repr

/-- The two functions of the core that a caller may ask for (R2, R66, R91). -/
inductive Operation where
  | encode
  | decompose
  deriving DecidableEq, Repr

/-- An immediate as a caller holds it (R23, R110): a mathematical integer of either sign and any
magnitude, or something that is no integer (a fraction, a not-a-number, an absent value). -/
inductive Immediate where
  | integer (v : Int)
  | notInteger
  deriving DecidableEq, Repr

/-- All components of a request but its format (R17), as the caller holds them. A register slot is `none` for
`unset` or any integer (R21, R109); a bit string is any character string (R22, R110). -/
structure Operands where
  rs1       : Option Int
  rs2       : Option Int
  rd        : Option Int
  immediate : Immediate
  opcode    : List Char
  funct3    : List Char
  funct7    : List Char
  deriving DecidableEq, Repr

/-- The levels on the input ports (R24, decisions D4 to D6). -/
structure PortInputs where
  fmt        : BitVec 3
  rs1Present : Bool
  rs1        : BitVec 5
  rs2Present : Bool
  rs2        : BitVec 5
  rdPresent  : Bool
  rd         : BitVec 5
  imm        : BitVec 32
  opcode     : BitVec 7
  funct3     : BitVec 3
  funct7     : BitVec 7
  deriving DecidableEq, Repr

/-- A request on its way to the block: at the abstract interface (a format tag and the components, R17) or at the
input ports (R24). `op` is the result the caller asks for. -/
inductive Request where
  | abstract (op : Operation) (tag : Char) (a : Operands)
  | ports (op : Operation) (p : PortInputs)
  deriving DecidableEq, Repr

/-- The closed list of reasons of the outcome `refuse(reason)` (R110). -/
inductive RefuseReason where
  /-- The format is not one of the six; at the port, `fmt` = 6 or 7. -/
  | badFormatTag
  /-- Some register slot holds an integer outside [0,31] (R109). -/
  | registerOutOfRange
  /-- opcode, funct3 or funct7 holds a character other than '0' and '1'. -/
  | badBitStringChar
  /-- The immediate is not an integer. -/
  | nonIntegerImmediate
  deriving DecidableEq, Repr

/-- One constructor per row of the opcode table: an operation with a format (R61). Every constructor carries all
components of the request, those its format does not use too (R17, R51). -/
inductive Instr where
  | encodeR (a : Operands)
  | encodeI (a : Operands)
  | encodeS (a : Operands)
  | encodeB (a : Operands)
  | encodeU (a : Operands)
  | encodeJ (a : Operands)
  | decomposeR (a : Operands)
  | decomposeI (a : Operands)
  | decomposeS (a : Operands)
  | decomposeB (a : Operands)
  | decomposeU (a : Operands)
  | decomposeJ (a : Operands)
  deriving DecidableEq, Repr

/-- The operation of a row. -/
def Instr.operation : Instr → Operation
  | .encodeR _ | .encodeI _ | .encodeS _ | .encodeB _ | .encodeU _ | .encodeJ _ => .encode
  | .decomposeR _ | .decomposeI _ | .decomposeS _ | .decomposeB _ | .decomposeU _ | .decomposeJ _ => .decompose

/-- The format that selects a row. -/
def Instr.format : Instr → InstructionFormat
  | .encodeR _ | .decomposeR _ => .R
  | .encodeI _ | .decomposeI _ => .I
  | .encodeS _ | .decomposeS _ => .S
  | .encodeB _ | .decomposeB _ => .B
  | .encodeU _ | .decomposeU _ => .U
  | .encodeJ _ | .decomposeJ _ => .J

/-- The components the instruction carries. -/
def Instr.operands : Instr → Operands
  | .encodeR a | .encodeI a | .encodeS a | .encodeB a | .encodeU a | .encodeJ a => a
  | .decomposeR a | .decomposeI a | .decomposeS a | .decomposeB a | .decomposeU a | .decomposeJ a => a

end Sys2Proof
end

