-- ==== Sys2Proof/WellFormed.lean ====
section
/-! DEFINITION. The contract of rule R66 as a check on the operands of an instruction: register indices in
range, bit strings over '0' and '1', an integer immediate. Lengths of bit strings, contents of fields and the magnitude
of the immediate are never checked (R55, R110). -/

namespace Sys2Proof

/-- A register slot is `unset` or an index in [0,31] (R21). -/
def registerInRange : Option Int → Bool
  | none => true
  | some n => decide (0 ≤ n) && decide (n < Config.registers)

/-- Only the characters '0' and '1' (R22). -/
def bitCharsOnly (cs : List Char) : Bool :=
  cs.all fun c => c == '0' || c == '1'

/-- The immediate is an integer (R23). -/
def Immediate.isInteger : Immediate → Bool
  | .integer _ => true
  | .notInteger => false

/-- Every register slot is in range, whether or not the format uses it (R109). -/
def Operands.registersInRange (a : Operands) : Bool :=
  registerInRange a.rs1 && registerInRange a.rs2 && registerInRange a.rd

/-- Every bit string is over '0' and '1' (R110). -/
def Operands.bitStringsBinary (a : Operands) : Bool :=
  bitCharsOnly a.opcode && bitCharsOnly a.funct3 && bitCharsOnly a.funct7

/-- The components meet the preconditions of the block (R66, R119). -/
def Operands.wf (a : Operands) : Bool :=
  a.registersInRange && a.bitStringsBinary && a.immediate.isInteger

/-- The instruction is inside the contract. -/
def Instr.wf (i : Instr) : Bool := i.operands.wf

end Sys2Proof
end

