-- ==== Sys2Proof/Decode.lean ====
section
/-! DEFINITION. From a presented request to the instruction it asks for: the format tag or the `fmt` port
selects the row (R57, R59, R61); any other tag is refused by name (R110). The encoder after it writes an instruction on
the input ports (R24, R26). The block has no path from a machine word to a request (R57); what `decodeTableWord`
does is log entry 5. -/

namespace Sys2Proof

/-- The format of a tag at the abstract interface (R20, R110). -/
def formatOfTag (tag : Char) : Except RefuseReason InstructionFormat :=
  if tag = 'R' then .ok .R
  else if tag = 'I' then .ok .I
  else if tag = 'S' then .ok .S
  else if tag = 'B' then .ok .B
  else if tag = 'U' then .ok .U
  else if tag = 'J' then .ok .J
  else .error .badFormatTag

/-- The format of a code on the `fmt` port (R59, decision D5); codes 6 and 7 are outside the contract. -/
def formatOfCode (c : BitVec 3) : Except RefuseReason InstructionFormat :=
  match c.toNat with
  | 0 => .ok .R
  | 1 => .ok .I
  | 2 => .ok .S
  | 3 => .ok .B
  | 4 => .ok .U
  | 5 => .ok .J
  | _ => .error .badFormatTag

/-- The row an operation and a format select (R61). -/
def instrOf : Operation → InstructionFormat → Operands → Instr
  | .encode, .R, a => .encodeR a
  | .encode, .I, a => .encodeI a
  | .encode, .S, a => .encodeS a
  | .encode, .B, a => .encodeB a
  | .encode, .U, a => .encodeU a
  | .encode, .J, a => .encodeJ a
  | .decompose, .R, a => .decomposeR a
  | .decompose, .I, a => .decomposeI a
  | .decompose, .S, a => .decomposeS a
  | .decompose, .B, a => .decomposeB a
  | .decompose, .U, a => .decomposeU a
  | .decompose, .J, a => .decomposeJ a

/-- A register slot read from its two ports: the index counts only when present (R24). -/
def slotOfPorts (present : Bool) (n : BitVec 5) : Option Int :=
  if present then some (n.toNat : Int) else none

/-- The characters of a bit-string port, bit `w-1` first (R24). -/
def charsOfPort {w : Nat} (x : BitVec w) : List Char := (bin w x.toNat).map charOfBit

/-- The components the input ports carry (R24): the immediate port is signed, two's complement. -/
def operandsOfPorts (p : PortInputs) : Operands where
  rs1       := slotOfPorts p.rs1Present p.rs1
  rs2       := slotOfPorts p.rs2Present p.rs2
  rd        := slotOfPorts p.rdPresent p.rd
  immediate := .integer p.imm.toInt
  opcode    := charsOfPort p.opcode
  funct3    := charsOfPort p.funct3
  funct7    := charsOfPort p.funct7

/-- The instruction a presented request asks for, or the reason it is refused: total on every request. -/
def decode : Request → Except RefuseReason Instr
  | .abstract op tag a =>
    match formatOfTag tag with
    | .ok f => .ok (instrOf op f a)
    | .error r => .error r
  | .ports op p =>
    match formatOfCode p.fmt with
    | .ok f => .ok (instrOf op f (operandsOfPorts p))
    | .error r => .error r

/-- The tag of a format at the abstract interface. -/
def tagOf : InstructionFormat → Char
  | .R => 'R' | .I => 'I' | .S => 'S' | .B => 'B' | .U => 'U' | .J => 'J'

/-- `FMT_CODE` (R59). -/
def codeOf : InstructionFormat → BitVec 3
  | .R => 0 | .I => 1 | .S => 2 | .B => 3 | .U => 4 | .J => 5

/-- The value a register slot puts on its 5-bit port: 0 when unset (R26). -/
def portOfSlot : Option Int → BitVec 5
  | none => 0
  | some n => BitVec.ofInt 5 n

/-- The value a bit string puts on its port: that of the normalised string (R26). -/
def portOfChars (w : Nat) (cs : List Char) : BitVec w :=
  BitVec.ofNat w (val (normalise w (bitsOrZero cs)))

/-- The value an immediate puts on its port: its residue (R26). -/
def portOfImmediate : Immediate → BitVec 32
  | .integer v => BitVec.ofInt 32 v
  | .notInteger => 0

/-- The levels on the input ports for a format and components inside the contract (R26). -/
def portImage (f : InstructionFormat) (a : Operands) : PortInputs where
  fmt        := codeOf f
  rs1Present := a.rs1.isSome
  rs1        := portOfSlot a.rs1
  rs2Present := a.rs2.isSome
  rs2        := portOfSlot a.rs2
  rdPresent  := a.rd.isSome
  rd         := portOfSlot a.rd
  imm        := portOfImmediate a.immediate
  opcode     := portOfChars Config.opcodeWidth a.opcode
  funct3     := portOfChars Config.funct3Width a.funct3
  funct7     := portOfChars Config.funct7Width a.funct7

/-- A well-formed instruction on the input ports (R26). -/
def encode (i : Instr) : PortInputs := portImage i.format i.operands

/-- An instruction as a request at the abstract interface. -/
def presentAbstract (i : Instr) : Request := .abstract i.operation (tagOf i.format) i.operands

/-- What a level on a register port means: an index that is ignored reads as 0 (R24, R26). -/
def PortInputs.canonical (p : PortInputs) : PortInputs :=
  { p with
    rs1 := if p.rs1Present then p.rs1 else 0
    rs2 := if p.rs2Present then p.rs2 else 0
    rd  := if p.rdPresent then p.rd else 0 }

/-- Components that fit the ports exactly: nothing would be truncated or padded (R24). -/
def Operands.fitsPorts (a : Operands) : Bool :=
  a.wf
    && (a.opcode.length == Config.opcodeWidth)
    && (a.funct3.length == Config.funct3Width)
    && (a.funct7.length == Config.funct7Width)
    && (match a.immediate with
        | .integer v => decide (-2 ^ 31 ≤ v) && decide (v < 2 ^ 31)
        | .notInteger => false)

/-- The format-R request whose fields stand where the opcode table puts them in the word (R41, R61), all three
registers present. -/
def portsOfTableWord (x : Word) : PortInputs where
  fmt        := codeOf .R
  rs1Present := true
  rs1        := x.extractLsb' 15 5
  rs2Present := true
  rs2        := x.extractLsb' 20 5
  rdPresent  := true
  rd         := x.extractLsb' 7 5
  imm        := 0
  opcode     := x.extractLsb' 0 7
  funct3     := x.extractLsb' 12 3
  funct7     := x.extractLsb' 25 7

/-- The request presented for a table word: its low `nbits` bits, every bit above them zero. The table's rows are
selected by the format and operation inputs, which no word holds (R57); they stand above the word's bits and are zero
there, which is ENCODE of format code 0, R (log entry 5). -/
def requestOfTableWord (nbits w : Nat) : Request :=
  .ports .encode (portsOfTableWord (BitVec.ofNat 32 (w % 2 ^ nbits)))

/-- What the decoder reads from a table word. Every word is 32 bits long (R40, R58): a longer one is refused. -/
def decodeTableWord (nbits w : Nat) : Option Instr :=
  if nbits ≤ Config.wordWidth then
    match decode (requestOfTableWord nbits w) with
    | .ok i => some i
    | .error _ => none
  else none

end Sys2Proof
end

