-- ==== Sys2Proof/Machine/State.lean ====
section
/-! DEFINITION. The value types that cross the block's boundary (R17 to R19, R25) and the state of the model.
The block itself has no state (R13 to R16): every field of `State` is the caller's side or the consumer's side of the
boundary, or a level on a wire (log entry 1). -/

namespace Sys2Proof.Machine

/-- A request inside the contract (R17): register references are `unset` or an index in [0,31] (R21), bit strings of any
length (R22), an integer of any magnitude (R23). -/
structure InstructionSpec where
  format    : InstructionFormat
  rs1       : Option (Fin 32)
  rs2       : Option (Fin 32)
  rd        : Option (Fin 32)
  immediate : Int
  opcode    : BitString
  funct3    : BitString
  funct7    : BitString
  deriving DecidableEq, Repr

/-- The rendered inputs of a request (R67 to R69), shared by both operations (R64, R105). -/
structure Rendered where
  op7 : BitString
  f3  : BitString
  f7  : BitString
  r1  : BitString
  r2  : BitString
  rd5 : BitString
  im  : BitString
  deriving DecidableEq, Repr

/-- The first output (R18): the bit string of the word and the characters of its hexadecimal rendering. -/
structure EncodedInstruction where
  binary : BitString
  hex    : List Char
  deriving DecidableEq, Repr

/-- The categories of a field (R19, R93). -/
inductive Category where
  | funct7 | rs2 | rs1 | funct3 | rd | opcode | imm
  deriving DecidableEq, Repr

/-- The labels of rule R92 (decision D7), one constructor each; `FieldName.label` is the text. -/
inductive FieldName where
  | funct7 | rs2 | rs1 | funct3 | rd | opcode
  /-- imm[11:0] -/
  | immWhole12
  /-- imm[11:5] -/
  | immHigh
  /-- imm[4:0] -/
  | immLow
  /-- imm[19:0] -/
  | immWhole20
  deriving DecidableEq, Repr

/-- One record of the second output (R19). -/
structure BitField where
  name     : FieldName
  width    : Nat
  value    : BitString
  category : Category
  deriving DecidableEq, Repr

/-- One slot of the decomposer output port (R25, decision D13). -/
structure FieldSlot where
  width    : BitVec 5
  value    : BitVec 20
  category : BitVec 3
  nameId   : BitVec 4
  deriving DecidableEq, Repr

/-- The levels on the output ports (R25): `binary` holds 32 characters, `hex` 10, `fields` 6 slots. -/
structure OutputPorts where
  word    : Word
  binary  : List Byte
  hex     : List Byte
  nfields : BitVec 3
  fields  : List FieldSlot
  deriving DecidableEq, Repr

/-- The outcome of one request (R12): the result the caller asked for, or a refusal. -/
inductive Answer where
  | encoded (e : EncodedInstruction)
  | fields (fs : List BitField)
  | refused (r : RefuseReason)
  deriving DecidableEq, Repr

/-- What the model holds: the requests still to be evaluated, oldest first; the levels on the input ports and on the
output ports; the outcomes so far, oldest first. A level is `none` where nothing that a port can carry stands on the
inputs, or where the spec gives the outputs no value (decision D18). -/
structure State where
  pending  : List Request
  inputs   : Option PortInputs
  outputs  : Option OutputPorts
  outcomes : List Answer
  deriving DecidableEq, Repr

/-- The block raises no exception, trap or error and is never stuck (R106, R113; 93_implementation_defined.md):
there is no fault. Safe: nothing can be proved of a fault that cannot be built. -/
inductive Fault where
  deriving DecidableEq, Repr

/-- Why `exec` may give no result. -/
inductive Refusal where
  /-- Raised by an arm of `exec` whose instruction has no meaning yet; no arm raises it. Safe. -/
  | notModelled (mnemonic : String)
  /-- Raised by every meaning when its operands are outside the contract, for the reason and in the order of rules
  R110 and R111: `registerOutOfRange`, `badBitStringChar`, `nonIntegerImmediate`. (`badFormatTag` is found by `decode`.)
  `step` records it as the outcome of the request. Safe: the spec gives such a request no result. -/
  | outOfContract (r : RefuseReason)
  deriving DecidableEq, Repr

/-- Nothing presented, no level known, no outcome yet (R27, R121: there is no reset and nothing to reset; log entry
6). -/
def State.reset : State where
  pending  := []
  inputs   := none
  outputs  := none
  outcomes := []

end Sys2Proof.Machine
end

