-- ==== Sys2Proof/Machine/WidthPolicy.lean ====
section
/-! DEFINITION. The Immediate Width Policy, the first component of the block (40_width_policy.md). -/

namespace Sys2Proof.Machine

/-- `immediateWidth` (R63), the one table of immediate widths (R64). -/
def immediateWidth : InstructionFormat → Nat
  | .R => 0
  | .I => 12
  | .S => 12
  | .B => 12
  | .U => 20
  | .J => 20

end Sys2Proof.Machine
end

