-- ==== Sys2Proof/Machine/Operands.lean ====
section
/-! DEFINITION. The operand forms: the contract check that turns what a caller holds into a request (R109 to
R111), and the renderings of registers, immediates and bit strings (R43 to R52, R67 to R69). -/

namespace Sys2Proof.Machine

/-- A register slot inside the contract (R21); none for an integer outside [0,31] (R109). -/
def registerReference : Option Int → Option (Option (Fin 32))
  | none => some none
  | some n => if h : 0 ≤ n ∧ n < 32 then some (some ⟨n.toNat, by omega⟩) else none

/-- The request a format and components make, or the reason it is refused, checked in the order of R111: registers,
then characters, then the immediate. -/
def contract (f : InstructionFormat) (a : Operands) : Except RefuseReason InstructionSpec :=
  match registerReference a.rs1, registerReference a.rs2, registerReference a.rd with
  | some rs1, some rs2, some rd =>
    match bitsOfChars a.opcode, bitsOfChars a.funct3, bitsOfChars a.funct7 with
    | some opcode, some funct3, some funct7 =>
      match a.immediate with
      | .integer v =>
        .ok { format := f, rs1 := rs1, rs2 := rs2, rd := rd, immediate := v, opcode := opcode, funct3 := funct3,
              funct7 := funct7 }
      | .notInteger => .error .nonIntegerImmediate
    | _, _, _ => .error .badBitStringChar
  | _, _, _ => .error .registerOutOfRange

/-- `reg5` (R43): five bits, zeros when unset (R49). -/
def reg5 : Option (Fin 32) → BitString
  | none => List.replicate Config.regWidth false
  | some n => bin Config.regWidth n.val

/-- `immbits` (R44): the low `immediateWidth` bits, neither scaled nor shifted (R31, R45). -/
def immbits (f : InstructionFormat) (v : Int) : BitString := low (immediateWidth f) v

/-- Steps 1 to 3 of both operations (R67, R68, R69, R105). -/
def render (sp : InstructionSpec) : Rendered where
  op7 := normalise Config.opcodeWidth sp.opcode
  f3  := normalise Config.funct3Width sp.funct3
  f7  := normalise Config.funct7Width sp.funct7
  r1  := reg5 sp.rs1
  r2  := reg5 sp.rs2
  rd5 := reg5 sp.rd
  im  := immbits sp.format sp.immediate

end Sys2Proof.Machine
end

