-- ==== Sys2Proof/Machine/Assemble.lean ====
section
/-! DEFINITION. The Field Assembler (41_encoder.md): the concatenation of each format's row (R70 to R75), the fit
to 32 characters (R76) and the hexadecimal rendering (R77). Formats B and J are laid contiguously (decision D1, log
entry 8). -/

namespace Sys2Proof.Machine

/-- R70: funct7(7) . rs2(5) . rs1(5) . funct3(3) . rd(5) . opcode(7). -/
def rawR (x : Rendered) : BitString := x.f7 ++ x.r2 ++ x.r1 ++ x.f3 ++ x.rd5 ++ x.op7

/-- R71: imm(12) . rs1(5) . funct3(3) . rd(5) . opcode(7). -/
def rawI (x : Rendered) : BitString := x.im ++ x.r1 ++ x.f3 ++ x.rd5 ++ x.op7

/-- `imm_hi` of formats S and B (R50): bits 11 to 5 of the truncated immediate. -/
def immHi (im : BitString) : BitString := left im Config.immHiWidth

/-- `imm_lo` of formats S and B (R50): bits 4 to 0 of the truncated immediate. -/
def immLo (im : BitString) : BitString := right im Config.immLoWidth

/-- R72: imm_hi(7) . rs2(5) . rs1(5) . funct3(3) . imm_lo(5) . opcode(7). -/
def rawS (x : Rendered) : BitString := immHi x.im ++ x.r2 ++ x.r1 ++ x.f3 ++ immLo x.im ++ x.op7

/-- R73: as R72, with no ISA re-ordering (R53). -/
def rawB (x : Rendered) : BitString := immHi x.im ++ x.r2 ++ x.r1 ++ x.f3 ++ immLo x.im ++ x.op7

/-- R74: imm(20) . rd(5) . opcode(7). -/
def rawU (x : Rendered) : BitString := x.im ++ x.rd5 ++ x.op7

/-- R75: as R74, with no ISA re-ordering (R53). -/
def rawJ (x : Rendered) : BitString := x.im ++ x.rd5 ++ x.op7

/-- Step 5 (R76): the fit to exactly 32 characters, `norm(32, raw)` (decision D11, log entry 16). -/
def fit32 (raw : BitString) : BitString := normalise Config.wordWidth raw

/-- `hexdigit(n)` (R77): character n of "0123456789ABCDEF". -/
def hexDigit (n : Nat) : Char :=
  ['0', '1', '2', '3', '4', '5', '6', '7', '8', '9', 'A', 'B', 'C', 'D', 'E', 'F'].getD n '0'

/-- Digit `j` of a word (R77): bits 31-4j down to 28-4j. -/
def hexNibble (word j : Nat) : Nat := word / 2 ^ (28 - 4 * j) % 16

/-- Step 6 (R77): `0x` and eight digits, most significant first. -/
def hexOf (binary : BitString) : List Char :=
  '0' :: 'x' :: (List.range Config.hexDigits).map fun j => hexDigit (hexNibble (val binary) j)

/-- The result made of a concatenation (R76 to R78). -/
def finish (raw : BitString) : EncodedInstruction where
  binary := fit32 raw
  hex    := hexOf (fit32 raw)

def encodedR (sp : InstructionSpec) : EncodedInstruction := finish (rawR (render sp))
def encodedI (sp : InstructionSpec) : EncodedInstruction := finish (rawI (render sp))
def encodedS (sp : InstructionSpec) : EncodedInstruction := finish (rawS (render sp))
def encodedB (sp : InstructionSpec) : EncodedInstruction := finish (rawB (render sp))
def encodedU (sp : InstructionSpec) : EncodedInstruction := finish (rawU (render sp))
def encodedJ (sp : InstructionSpec) : EncodedInstruction := finish (rawJ (render sp))

/-- `encode(spec)` (R66, R78): a total match on the six formats. -/
def encodeSpec (sp : InstructionSpec) : EncodedInstruction :=
  match sp.format with
  | .R => encodedR sp
  | .I => encodedI sp
  | .S => encodedS sp
  | .B => encodedB sp
  | .U => encodedU sp
  | .J => encodedJ sp

end Sys2Proof.Machine
end

