-- ==== Sys2Proof/Machine/Fields.lean ====
section
/-! DEFINITION. The Field Decomposer (42_decomposer.md): one record per field group of the format's row (R91,
R94 to R99), with the renderings of the Encoder (R105), the labels of R92 and the categories of R93. -/

namespace Sys2Proof.Machine

/-- The category of a label (R93): its own name, and `imm` for every immediate group. -/
def FieldName.category : FieldName → Category
  | .funct7 => .funct7
  | .rs2 => .rs2
  | .rs1 => .rs1
  | .funct3 => .funct3
  | .rd => .rd
  | .opcode => .opcode
  | .immWhole12 | .immHigh | .immLow | .immWhole20 => .imm

/-- The text of a label (R92, decision D7, log entry 10); presentation only. -/
def FieldName.label : FieldName → String
  | .funct7 => "funct7"
  | .rs2 => "rs2"
  | .rs1 => "rs1"
  | .funct3 => "funct3"
  | .rd => "rd"
  | .opcode => "opcode"
  | .immWhole12 => "imm[11:0]"
  | .immHigh => "imm[11:5]"
  | .immLow => "imm[4:0]"
  | .immWhole20 => "imm[19:0]"

/-- One record (R91). -/
def record (n : FieldName) (width : Nat) (value : BitString) : BitField where
  name     := n
  width    := width
  value    := value
  category := n.category

/-- R94. -/
def recordsR (x : Rendered) : List BitField :=
  [record .funct7 7 x.f7, record .rs2 5 x.r2, record .rs1 5 x.r1, record .funct3 3 x.f3, record .rd 5 x.rd5,
   record .opcode 7 x.op7]

/-- R95. -/
def recordsI (x : Rendered) : List BitField :=
  [record .immWhole12 12 x.im, record .rs1 5 x.r1, record .funct3 3 x.f3, record .rd 5 x.rd5, record .opcode 7 x.op7]

/-- R96. -/
def recordsS (x : Rendered) : List BitField :=
  [record .immHigh 7 (immHi x.im), record .rs2 5 x.r2, record .rs1 5 x.r1, record .funct3 3 x.f3,
   record .immLow 5 (immLo x.im), record .opcode 7 x.op7]

/-- R97: the labels of the contiguous layout (decisions D1, D7). -/
def recordsB (x : Rendered) : List BitField :=
  [record .immHigh 7 (immHi x.im), record .rs2 5 x.r2, record .rs1 5 x.r1, record .funct3 3 x.f3,
   record .immLow 5 (immLo x.im), record .opcode 7 x.op7]

/-- R98. -/
def recordsU (x : Rendered) : List BitField :=
  [record .immWhole20 20 x.im, record .rd 5 x.rd5, record .opcode 7 x.op7]

/-- R99: the label of the contiguous layout (decisions D1, D7). -/
def recordsJ (x : Rendered) : List BitField :=
  [record .immWhole20 20 x.im, record .rd 5 x.rd5, record .opcode 7 x.op7]

def decomposedR (sp : InstructionSpec) : List BitField := recordsR (render sp)
def decomposedI (sp : InstructionSpec) : List BitField := recordsI (render sp)
def decomposedS (sp : InstructionSpec) : List BitField := recordsS (render sp)
def decomposedB (sp : InstructionSpec) : List BitField := recordsB (render sp)
def decomposedU (sp : InstructionSpec) : List BitField := recordsU (render sp)
def decomposedJ (sp : InstructionSpec) : List BitField := recordsJ (render sp)

/-- `decompose(spec)` (R91): a total match on the six formats (R20). -/
def decomposeSpec (sp : InstructionSpec) : List BitField :=
  match sp.format with
  | .R => decomposedR sp
  | .I => decomposedI sp
  | .S => decomposedS sp
  | .B => decomposedB sp
  | .U => decomposedU sp
  | .J => decomposedJ sp

end Sys2Proof.Machine
end

