-- ==== Sys2Proof/Machine/Ports.lean ====
section
/-! DEFINITION. The output ports (R25): the image of the two results on them, which the meanings drive, and the
block as a Boolean function from input levels to output levels (R90, R104, R122), written apart from the abstract
operations so that claims can compare the two. -/

namespace Sys2Proof.Machine

/-- `CAT_CODE` (R93, decision D8). -/
def Category.code : Category → BitVec 3
  | .funct7 => 0
  | .rs2 => 1
  | .rs1 => 2
  | .funct3 => 3
  | .rd => 4
  | .opcode => 5
  | .imm => 6

/-- `name_id` (R92). -/
def FieldName.id : FieldName → BitVec 4
  | .funct7 => 1
  | .rs2 => 2
  | .rs1 => 3
  | .funct3 => 4
  | .rd => 5
  | .opcode => 6
  | .immWhole12 => 7
  | .immHigh => 8
  | .immLow => 9
  | .immWhole20 => 10

/-- `CHAR_ENC` (R25, decision D9): 8-bit ASCII. -/
def ascii (c : Char) : Byte := BitVec.ofNat 8 c.toNat

/-- An unused slot (R25): all four values 0. -/
def FieldSlot.empty : FieldSlot where
  width    := 0
  value    := 0
  category := 0
  nameId   := 0

/-- A record on its slot (R25). -/
def slotOfField (f : BitField) : FieldSlot where
  width    := BitVec.ofNat 5 f.width
  value    := BitVec.ofNat 20 (val f.value)
  category := f.category.code
  nameId   := f.name.id

/-- Six slots, the records first, the rest unused (R25). -/
def padSlots (slots : List FieldSlot) : List FieldSlot :=
  (List.range Config.maxFields).map fun k => slots.getD k FieldSlot.empty

/-- The two results of one request on the output ports (R25, R124). -/
def outputImage (e : EncodedInstruction) (fs : List BitField) : OutputPorts where
  word    := BitVec.ofNat 32 (val e.binary)
  binary  := e.binary.map fun b => ascii (charOfBit b)
  hex     := e.hex.map ascii
  nfields := BitVec.ofNat 3 fs.length
  fields  := padSlots (fs.map slotOfField)

/-! The hardware form. -/

/-- `u(p)` of rule R90: a register port counts only when present. -/
def gated (present : Bool) (n : BitVec 5) : BitVec 5 := if present then n else 0

/-- The word of rule R90 for each format. -/
def portWord (f : InstructionFormat) (p : PortInputs) : Word :=
  match f with
  | .R => p.funct7 ++ gated p.rs2Present p.rs2 ++ gated p.rs1Present p.rs1 ++ p.funct3 ++ gated p.rdPresent p.rd ++ p.opcode
  | .I => p.imm.extractLsb' 0 12 ++ gated p.rs1Present p.rs1 ++ p.funct3 ++ gated p.rdPresent p.rd ++ p.opcode
  | .S | .B =>
    p.imm.extractLsb' 5 7 ++ gated p.rs2Present p.rs2 ++ gated p.rs1Present p.rs1 ++ p.funct3 ++ p.imm.extractLsb' 0 5
      ++ p.opcode
  | .U | .J => p.imm.extractLsb' 0 20 ++ gated p.rdPresent p.rd ++ p.opcode

/-- One field group of a format: its slice of `binary` (R62), its category code and its `name_id` (R92, R93). -/
structure FieldGroup where
  start    : Nat
  len      : Nat
  category : BitVec 3
  nameId   : BitVec 4
  deriving DecidableEq, Repr

/-- The field groups of each format's row (R41, R62, R92, R93), as the rows of the opcode table list them. -/
def groups : InstructionFormat → List FieldGroup
  | .R => [⟨0, 7, 0, 1⟩, ⟨7, 5, 1, 2⟩, ⟨12, 5, 2, 3⟩, ⟨17, 3, 3, 4⟩, ⟨20, 5, 4, 5⟩, ⟨25, 7, 5, 6⟩]
  | .I => [⟨0, 12, 6, 7⟩, ⟨12, 5, 2, 3⟩, ⟨17, 3, 3, 4⟩, ⟨20, 5, 4, 5⟩, ⟨25, 7, 5, 6⟩]
  | .S | .B => [⟨0, 7, 6, 8⟩, ⟨7, 5, 1, 2⟩, ⟨12, 5, 2, 3⟩, ⟨17, 3, 3, 4⟩, ⟨20, 5, 6, 9⟩, ⟨25, 7, 5, 6⟩]
  | .U | .J => [⟨0, 20, 6, 10⟩, ⟨20, 5, 4, 5⟩, ⟨25, 7, 5, 6⟩]

/-- The slot of a group for a word (R104): the slice of the word between bits 31 - start and 32 - start - len. -/
def slotOfGroup (word : Word) (g : FieldGroup) : FieldSlot where
  width    := BitVec.ofNat 5 g.len
  value    := (word.extractLsb' (32 - g.start - g.len) g.len).setWidth 20
  category := g.category
  nameId   := g.nameId

/-- The ASCII code of a hexadecimal digit (R25). -/
def hexByte (n : BitVec 4) : Byte := if n.toNat < 10 then 0x30 + n.setWidth 8 else 0x37 + n.setWidth 8

/-- The block as hardware (R90, R104, R122): each output is a function of the input levels; none for `fmt` 6 and 7,
whose outputs the spec leaves unspecified (decision D18, log entry 7). -/
def blockOutputs (p : PortInputs) : Option OutputPorts :=
  match formatOfCode p.fmt with
  | .error _ => none
  | .ok f =>
    some {
      word    := portWord f p
      binary  := (List.range Config.wordWidth).map fun k => if (portWord f p).getLsbD (31 - k) then 0x31 else 0x30
      hex     := 0x30 :: 0x78 :: (List.range Config.hexDigits).map fun j =>
                   hexByte ((portWord f p).extractLsb' (28 - 4 * j) 4)
      nfields := BitVec.ofNat 3 (groups f).length
      fields  := padSlots ((groups f).map (slotOfGroup (portWord f p))) }

end Sys2Proof.Machine
end

