-- ==== Sys2Proof/Machine/Ops.lean ====
section
/-! DEFINITION. The shared operations: presenting a request, delivering a result, declining a request, and the
one shape of every meaning (R12). The block takes no exception (R106, R113), so there is no exception entry and no
return from one: a refusal is the absence of a result (R114). -/

namespace Sys2Proof.Machine

/-- The levels a request puts on the input ports: those given at the port, or the image of an abstract request inside
the contract (R26); a request outside it is unrepresentable there (R110). -/
def requestLevels : Request → Option PortInputs
  | .ports _ p => some p
  | .abstract _ tag a =>
    match formatOfTag tag with
    | .ok f => if a.wf then some (portImage f a) else none
    | .error _ => none

/-- The request leaves the queue and stands on the inputs. -/
def State.present (r : Request) (rest : List Request) (s : State) : State :=
  { s with pending := rest, inputs := requestLevels r }

/-- One request has its result (R12 (a)): both results of it stand on the output ports, and the answer the caller asked
for is the request's outcome. -/
def State.deliver (sp : InstructionSpec) (x : Answer) (s : State) : State :=
  { s with outputs := some (outputImage (encodeSpec sp) (decomposeSpec sp)), outcomes := s.outcomes ++ [x] }

/-- One request is refused (R12 (b), R110): no result, no outputs, and nothing else is left behind (R114; log entry
3). -/
def State.decline (r : RefuseReason) (s : State) : State :=
  { s with outputs := none, outcomes := s.outcomes ++ [.refused r] }

/-- The shape of every meaning: check the contract (R66), then deliver what the instruction computes of the request. -/
def answerWith (f : InstructionFormat) (a : Operands) (result : InstructionSpec → Answer) (s : State) :
    Host.Outcome State Fault Refusal :=
  match contract f a with
  | .ok sp => .next (s.deliver sp (result sp))
  | .error r => .refused (.outOfContract r)

/-- What `step` makes of an instruction's outcome: a refusal of the contract is the outcome of that request and the
next request is unaffected (R39, R114; log entry 3). -/
def settle (s : State) : Host.Outcome State Fault Refusal → Host.Outcome State Fault Refusal
  | .refused (.outOfContract r) => .next (s.decline r)
  | o => o

end Sys2Proof.Machine
end

