-- ==== Sys2Proof/Machine/Decomposer.lean ====
section
/-! DEFINITION. The meanings of the DECOMPOSE rows: the field list is the request's outcome. -/

namespace Sys2Proof.Machine

/-- DECOMPOSE.R (R94). -/
def execDecomposeR (a : Operands) (s : State) : Host.Outcome State Fault Refusal :=
  answerWith .R a (fun sp => .fields (decomposedR sp)) s

/-- DECOMPOSE.I (R95). -/
def execDecomposeI (a : Operands) (s : State) : Host.Outcome State Fault Refusal :=
  answerWith .I a (fun sp => .fields (decomposedI sp)) s

/-- DECOMPOSE.S (R96). -/
def execDecomposeS (a : Operands) (s : State) : Host.Outcome State Fault Refusal :=
  answerWith .S a (fun sp => .fields (decomposedS sp)) s

/-- DECOMPOSE.B (R97). -/
def execDecomposeB (a : Operands) (s : State) : Host.Outcome State Fault Refusal :=
  answerWith .B a (fun sp => .fields (decomposedB sp)) s

/-- DECOMPOSE.U (R98). -/
def execDecomposeU (a : Operands) (s : State) : Host.Outcome State Fault Refusal :=
  answerWith .U a (fun sp => .fields (decomposedU sp)) s

/-- DECOMPOSE.J (R99). -/
def execDecomposeJ (a : Operands) (s : State) : Host.Outcome State Fault Refusal :=
  answerWith .J a (fun sp => .fields (decomposedJ sp)) s

end Sys2Proof.Machine
end

