-- ==== Sys2Proof/Machine/Encoder.lean ====
section
/-! DEFINITION. The meanings of the ENCODE rows: the encoded instruction is the request's outcome. -/

namespace Sys2Proof.Machine

/-- ENCODE.R (R70). -/
def execEncodeR (a : Operands) (s : State) : Host.Outcome State Fault Refusal :=
  answerWith .R a (fun sp => .encoded (encodedR sp)) s

/-- ENCODE.I (R71). -/
def execEncodeI (a : Operands) (s : State) : Host.Outcome State Fault Refusal :=
  answerWith .I a (fun sp => .encoded (encodedI sp)) s

/-- ENCODE.S (R72). -/
def execEncodeS (a : Operands) (s : State) : Host.Outcome State Fault Refusal :=
  answerWith .S a (fun sp => .encoded (encodedS sp)) s

/-- ENCODE.B (R73). -/
def execEncodeB (a : Operands) (s : State) : Host.Outcome State Fault Refusal :=
  answerWith .B a (fun sp => .encoded (encodedB sp)) s

/-- ENCODE.U (R74). -/
def execEncodeU (a : Operands) (s : State) : Host.Outcome State Fault Refusal :=
  answerWith .U a (fun sp => .encoded (encodedU sp)) s

/-- ENCODE.J (R75). -/
def execEncodeJ (a : Operands) (s : State) : Host.Outcome State Fault Refusal :=
  answerWith .J a (fun sp => .encoded (encodedJ sp)) s

end Sys2Proof.Machine
end

