-- ==== Sys2Proof/Machine/Dispatch.lean ====
section
/-! DEFINITION. One arm per constructor of `Instr`, each a direct call of its meaning. -/

namespace Sys2Proof.Machine

def exec (i : Instr) (s : State) : Host.Outcome State Fault Refusal :=
  match i with
  | .encodeR a => Sys2Proof.Machine.execEncodeR a s
  | .encodeI a => Sys2Proof.Machine.execEncodeI a s
  | .encodeS a => Sys2Proof.Machine.execEncodeS a s
  | .encodeB a => Sys2Proof.Machine.execEncodeB a s
  | .encodeU a => Sys2Proof.Machine.execEncodeU a s
  | .encodeJ a => Sys2Proof.Machine.execEncodeJ a s
  | .decomposeR a => Sys2Proof.Machine.execDecomposeR a s
  | .decomposeI a => Sys2Proof.Machine.execDecomposeI a s
  | .decomposeS a => Sys2Proof.Machine.execDecomposeS a s
  | .decomposeB a => Sys2Proof.Machine.execDecomposeB a s
  | .decomposeU a => Sys2Proof.Machine.execDecomposeU a s
  | .decomposeJ a => Sys2Proof.Machine.execDecomposeJ a s

end Sys2Proof.Machine
end

