-- ==== Sys2Proof/Machine/Step.lean ====
section
/-! DEFINITION. One step evaluates one request (R12): the oldest pending request is presented, decoded and executed.
With nothing presented the inputs, and so the outputs, stay as they are (R27; log entry 4). -/

namespace Sys2Proof.Machine

/-- One step of the model. -/
def step (s : State) : Host.Outcome State Fault Refusal :=
  match s.pending with
  | [] => .next s
  | r :: rest =>
    match decode r with
    | .ok i => settle (s.present r rest) (exec i (s.present r rest))
    | .error reason => .next ((s.present r rest).decline reason)

/-- The state in which the very next step evaluates the request of a table word (log entry 5). -/
def State.withFetchWord (s : State) (nbits w : Nat) : State :=
  { s with pending := requestOfTableWord nbits w :: s.pending }

end Sys2Proof.Machine
end

