-- ==== Sys2Proof/Safety.lean ====
section
/-! DEFINITION. The terms claims use: reading a string back (R82), the shape of an answer (R18, R19, R101), and
the invariant of the boundary. -/

namespace Sys2Proof.Machine

/-- The value of one hexadecimal digit, upper case only; none for any other character. -/
def parseHexDigit (c : Char) : Option Nat :=
  if 0x30 ≤ c.toNat ∧ c.toNat ≤ 0x39 then some (c.toNat - 0x30)
  else if 0x41 ≤ c.toNat ∧ c.toNat ≤ 0x46 then some (c.toNat - 0x37)
  else none

/-- The value of a string of hexadecimal digits read after a prefix of value `acc`. -/
def parseHexDigits : Nat → List Char → Option Nat
  | acc, [] => some acc
  | acc, c :: cs =>
    match parseHexDigit c with
    | some d => parseHexDigits (16 * acc + d) cs
    | none => none

/-- `parse_hex` (R82): `0x` and hexadecimal digits. -/
def parseHex : List Char → Option Nat
  | '0' :: 'x' :: ds => parseHexDigits 0 ds
  | _ => none

/-- The pattern of rule R81: `0x` and exactly eight of the characters 0 to 9 and A to F. -/
def hexShaped : List Char → Bool
  | '0' :: 'x' :: ds => (ds.length == 8) && ds.all fun c => (parseHexDigit c).isSome
  | _ => false

/-- A record's value has as many characters as its width says (R19, R101). -/
def BitField.shaped (f : BitField) : Bool := f.value.length == f.width

/-- The shape of an outcome: a 32-character word whose hex string is shaped and denotes it (R18, R81, R82); records
of the stated widths that sum to 32 (R101); a refusal has no shape to meet. -/
def Answer.shaped : Answer → Bool
  | .encoded e => (e.binary.length == 32) && hexShaped e.hex && (parseHex e.hex == some (val e.binary))
  | .fields fs => fs.all BitField.shaped && ((fs.map BitField.width).sum == 32)
  | .refused _ => true

/-- The levels on the output ports are the block's function of the levels on the input ports (R27, R122). -/
def State.outputsFollowInputs (s : State) : Prop := s.outputs = s.inputs.bind blockOutputs

/-- The invariant of the boundary. -/
def State.Inv (s : State) : Prop := s.outputsFollowInputs ∧ ∀ x ∈ s.outcomes, x.shaped = true

/-! The layout tables that the laws of the spec are stated with, written apart from the assembler. -/

/-- The slices of `binary` that hold a format's field groups, in order: (start, length) (R62). -/
def fieldSlices : InstructionFormat → List (Nat × Nat)
  | .R => [(0, 7), (7, 5), (12, 5), (17, 3), (20, 5), (25, 7)]
  | .I => [(0, 12), (12, 5), (17, 3), (20, 5), (25, 7)]
  | .S | .B => [(0, 7), (7, 5), (12, 5), (17, 3), (20, 5), (25, 7)]
  | .U | .J => [(0, 20), (20, 5), (25, 7)]

/-- The slices of `binary` that hold immediate bits (R83). -/
def immediateSlices : InstructionFormat → List (Nat × Nat)
  | .R => []
  | .I => [(0, 12)]
  | .S | .B => [(0, 7), (20, 5)]
  | .U | .J => [(0, 20)]

/-- Character `k` stands in some slice of the list. -/
def inSlices (slices : List (Nat × Nat)) (k : Nat) : Bool :=
  slices.any fun g => decide (g.1 ≤ k) && decide (k < g.1 + g.2)

/-- The components of a request (R17), its format apart. -/
inductive Component where
  | funct7 | rs2 | rs1 | funct3 | rd | opcode | immediate
  deriving DecidableEq, Repr

/-- The component that supplies each field group of a format, in order (R42); those in the list are the components
the format uses (R51). -/
def fieldSources : InstructionFormat → List Component
  | .R => [.funct7, .rs2, .rs1, .funct3, .rd, .opcode]
  | .I => [.immediate, .rs1, .funct3, .rd, .opcode]
  | .S | .B => [.immediate, .rs2, .rs1, .funct3, .immediate, .opcode]
  | .U | .J => [.immediate, .rd, .opcode]

/-- Two requests hold the same value in a component. -/
def sameComponent (sp sp' : InstructionSpec) : Component → Prop
  | .funct7 => sp.funct7 = sp'.funct7
  | .rs2 => sp.rs2 = sp'.rs2
  | .rs1 => sp.rs1 = sp'.rs1
  | .funct3 => sp.funct3 = sp'.funct3
  | .rd => sp.rd = sp'.rd
  | .opcode => sp.opcode = sp'.opcode
  | .immediate => sp.immediate = sp'.immediate

/-- The rendered value of a component (R42). -/
def renderedComponent (x : Rendered) : Component → BitString
  | .funct7 => x.f7
  | .rs2 => x.r2
  | .rs1 => x.r1
  | .funct3 => x.f3
  | .rd => x.rd5
  | .opcode => x.op7
  | .immediate => x.im

/-- The number of a register reference as rendered: 0 when unset (R49). -/
def registerNumber : Option (Fin 32) → Nat
  | none => 0
  | some n => n.val

/-- The word as arithmetic (R54). -/
def arithmeticWord (sp : InstructionSpec) : Nat :=
  let op := val sp.opcode % 2 ^ 7
  let f3 := val sp.funct3 % 2 ^ 3
  let f7 := val sp.funct7 % 2 ^ 7
  let r1 := registerNumber sp.rs1
  let r2 := registerNumber sp.rs2
  let rd := registerNumber sp.rd
  let i12 := (sp.immediate % 4096).toNat
  let i20 := (sp.immediate % 1048576).toNat
  match sp.format with
  | .R => f7 * 2 ^ 25 + r2 * 2 ^ 20 + r1 * 2 ^ 15 + f3 * 2 ^ 12 + rd * 2 ^ 7 + op
  | .I => i12 * 2 ^ 20 + r1 * 2 ^ 15 + f3 * 2 ^ 12 + rd * 2 ^ 7 + op
  | .S | .B => i12 / 32 * 2 ^ 25 + r2 * 2 ^ 20 + r1 * 2 ^ 15 + f3 * 2 ^ 12 + i12 % 32 * 2 ^ 7 + op
  | .U | .J => i20 * 2 ^ 12 + rd * 2 ^ 7 + op

/-- What a delivered result leaves as it was, and the one outcome it adds after the earlier ones. -/
def State.Answered (s t : State) (x : Answer) : Prop :=
  t.pending = s.pending ∧ t.inputs = s.inputs ∧ t.outcomes = s.outcomes ++ [x]

/-- The state with nothing known but one request presented. -/
def State.alone (r : Request) : State := { State.reset with pending := [r] }

end Sys2Proof.Machine
end

