-- ==== Sys2Proof/Certificates/Slice0/Obligations.lean ====
section
/-! DEFINITION. The statements for the provers. "spec's own" marks a clause the spec itself marks [derived] or
[decision]; "model's choice" one that a log entry under notes/assumptions names. -/

open Sys2Proof Sys2Proof.Machine

/-! ## The machine around the block -/

/-- Model's choice, log entry 6 (the spec has no reset, R27, R121): nothing presented, no level, no outcome. -/
def Obligations.ResetHasNothingPresented : Prop :=
  State.reset.pending = [] ∧ State.reset.inputs = none ∧ State.reset.outputs = none ∧ State.reset.outcomes = []

/-- The step runs the decoded instruction (log entry 1): when the oldest request decodes to a well-formed instruction,
the step is `exec` of it in the state where that request has left the queue and stands on the inputs. -/
def Obligations.StepRunsTheDecodedInstruction : Prop :=
  ∀ (s : State) (r : Request) (rest : List Request) (i : Instr),
    s.pending = r :: rest → decode r = .ok i → i.wf = true →
      step s = exec i { s with pending := rest, inputs := requestLevels r }

/-- A refused request (R110, R114; recorded and passed, log entry 3) leaves no outputs and one outcome, whether the
format tag or the contract refuses it. -/
def Obligations.RefusedRequestIsRecorded : Prop :=
  ∀ (s : State) (r : Request) (rest : List Request) (e : RefuseReason),
    s.pending = r :: rest →
    (decode r = .error e ∨ ∃ i, decode r = .ok i ∧ contract i.format i.operands = .error e) →
      step s = .next { pending := rest, inputs := requestLevels r, outputs := none,
                       outcomes := s.outcomes ++ [.refused e] }

/-- Model's choice, log entry 4: with nothing presented a step changes nothing. -/
def Obligations.IdleStepChangesNothing : Prop :=
  ∀ s : State, s.pending = [] → step s = .next s

/-- Model's choice in part. R106 and R12 say it of requests inside the contract: they have a result, nothing is raised.
That a refused request is recorded and the step goes on is log entry 3, that a step with nothing pending answers a next
state is log entry 4, that no step faults is log entry 20, and the queue that feeds the steps is log entries 1 and 17. -/
def Obligations.EveryStepAnswersOneRequest : Prop :=
  ∀ s : State, ∃ t : State, step s = .next t ∧ t.pending = s.pending.tail ∧
    ∃ new : List Answer, t.outcomes = s.outcomes ++ new ∧ new.length = min 1 s.pending.length

/-- The answer depends on the request alone (R33 (a), (b)). Model's choice in part: that both states answer a refused
request and go on is log entry 3, the queue log entries 1 and 17, the levels an operation leaves log entries 2 and 19. -/
def Obligations.AnswerDependsOnTheRequestAlone : Prop :=
  ∀ (s s' : State) (r : Request) (rest rest' : List Request),
    s.pending = r :: rest → s'.pending = r :: rest' →
    ∃ (t t' : State) (x : Answer), step s = .next t ∧ step s' = .next t' ∧
      t.outcomes = s.outcomes ++ [x] ∧ t'.outcomes = s'.outcomes ++ [x] ∧
      t.outputs = t'.outputs ∧ t.inputs = t'.inputs

/-- R85 gives the law for requests inside the contract. Model's choice in part: that a refused request is recorded both
times and the machine goes on is log entry 3, and the queue that feeds one request a step is log entries 1 and 17. -/
def Obligations.RepeatedRequestRepeatsItsOutcome : Prop :=
  ∀ (s : State) (r : Request) (rest : List Request), s.pending = r :: r :: rest →
    ∃ (t : State) (x : Answer), core.run 2 s = .next t ∧ t.pending = rest ∧ t.outcomes = s.outcomes ++ [x, x]

/-- R39 (spec's own, from R33 and R13): for any sequence of requests, from any state, each request's outcome is the one
it has when issued alone. Model's choice in part: a refused request of the sequence is recorded and passed (log entry 3),
and the queue answers one request a step in the order of presentation (log entries 1 and 17). -/
def Obligations.RequestsAreIndependent : Prop :=
  ∀ (s : State) (rs rest : List Request), s.pending = rs ++ rest →
    ∃ (t : State) (xs : List Answer), core.run rs.length s = .next t ∧ t.pending = rest ∧
      t.outcomes = s.outcomes ++ xs ∧ xs.length = rs.length ∧
      ∀ (k : Nat) (r : Request), rs[k]? = some r →
        ∃ u : State, step (State.alone r) = .next u ∧ u.outcomes = [xs.getD k (.refused .badFormatTag)]

/-- The invariant of the boundary holds at reset (log entry 6). -/
def Obligations.InvariantHoldsAtReset : Prop := State.reset.Inv

/-- Every step keeps the invariant: the output ports are the block's Boolean function of the input ports (R27, R122; the
ports are spec's own, decision D4), and every outcome has its shape (R18, R81, R82, R101). Model's choice in part: no
output levels after a refused request (log entries 3 and 7), both results on the ports after either operation (log entry
2). -/
def Obligations.StepKeepsTheInvariant : Prop :=
  ∀ s t : State, s.Inv → step s = .next t → t.Inv

/-! ## Requests and their decoding -/

/-- The port vectors H1 to H6 of 95_test_vectors.md section 2.11 (spec's own) ask for the instructions they stand for. -/
def Obligations.PortVectorsDecode : Prop :=
  decode (.ports .encode ⟨0, true, 1, true, 2, true, 3, 0x00000000, 0b0110011, 0b000, 0b0000000⟩)
    = .ok (.encodeR ⟨some 1, some 2, some 3, .integer 0, "0110011".toList, "000".toList, "0000000".toList⟩) ∧
  decode (.ports .encode ⟨1, true, 2, false, 0, true, 5, 0x00000004, 0b0000011, 0b010, 0b0000000⟩)
    = .ok (.encodeI ⟨some 2, none, some 5, .integer 4, "0000011".toList, "010".toList, "0000000".toList⟩) ∧
  decode (.ports .encode ⟨2, true, 2, true, 5, false, 0, 0xFFFFFFFC, 0b0100011, 0b010, 0b0000000⟩)
    = .ok (.encodeS ⟨some 2, some 5, none, .integer (-4), "0100011".toList, "010".toList, "0000000".toList⟩) ∧
  decode (.ports .decompose ⟨3, true, 10, true, 11, false, 0, 0xFFFFFFF8, 0b1100011, 0b001, 0b0000000⟩)
    = .ok (.decomposeB ⟨some 10, some 11, none, .integer (-8), "1100011".toList, "001".toList, "0000000".toList⟩) ∧
  decode (.ports .decompose ⟨4, false, 0, false, 0, true, 1, 0x000FFFFF, 0b0110111, 0b000, 0b0000000⟩)
    = .ok (.decomposeU ⟨none, none, some 1, .integer 1048575, "0110111".toList, "000".toList, "0000000".toList⟩) ∧
  decode (.ports .decompose ⟨5, false, 0, false, 0, true, 0, 0xFFFFFFFE, 0b1101111, 0b000, 0b0000000⟩)
    = .ok (.decomposeJ ⟨none, none, some 0, .integer (-2), "1101111".toList, "000".toList, "0000000".toList⟩)

/-- R59 and R110 (spec's own, decision D5): the `fmt` codes 0 to 5 select the formats in the order R, I, S, B, U, J,
whatever the other ports carry; 6 and 7 are refused. -/
def Obligations.FormatCodesSelectTheRow : Prop :=
  ∀ (op : Operation) (p : PortInputs),
    (∀ f : InstructionFormat, p.fmt = codeOf f →
      ∃ i, decode (.ports op p) = .ok i ∧ i.format = f ∧ i.operation = op ∧ i.wf = true) ∧
    (6 ≤ p.fmt.toNat → decode (.ports op p) = .error .badFormatTag)

/-- R110 (spec's own, decision D5) at the abstract interface: the six tags select their formats, every other tag is
refused, whatever the operands are. -/
def Obligations.OnlyTheSixTagsAreFormats : Prop :=
  ∀ (op : Operation) (tag : Char) (a : Operands),
    (∀ f : InstructionFormat, tag = tagOf f → decode (.abstract op tag a) = .ok (instrOf op f a)) ∧
    ((∀ f : InstructionFormat, tag ≠ tagOf f) → decode (.abstract op tag a) = .error .badFormatTag)

/-- Decoding what the encoder puts on the ports gives the instruction back, for every instruction whose components fit
the ports exactly (R24, spec's own), every value of every operand included. -/
def Obligations.DecodeEncodeRoundTrip : Prop :=
  ∀ i : Instr, i.operands.fitsPorts = true → decode (.ports i.operation (encode i)) = .ok i

/-- The other direction: whatever stands on the ports, encoding what it decodes to gives the same levels, but for the
index of a register that is not present, which is ignored (R24, spec's own). -/
def Obligations.EncodeDecodeKeepsTheLevels : Prop :=
  ∀ (op : Operation) (p : PortInputs) (i : Instr), decode (.ports op p) = .ok i →
    encode i = p.canonical ∧ i.operation = op ∧ i.operands.fitsPorts = true

/-- R26 (spec's own): for every request inside the contract, with bit strings of any length and an immediate of any
magnitude, the port image asks for an instruction that does exactly what the request does. -/
def Obligations.PortImageLosesNothing : Prop :=
  ∀ i : Instr, i.wf = true → ∃ j : Instr, decode (.ports i.operation (encode i)) = .ok j ∧
    j.format = i.format ∧ j.operation = i.operation ∧ ∀ s : State, exec j s = exec i s

/-- Model's choice, log entry 5: a 32-bit table word is read as the format-R request whose word it is, and the very next
step after presenting it delivers that word. -/
def Obligations.TableWordRunsFirst : Prop :=
  ∀ (s : State) (w : Nat), w < 2 ^ 32 →
    ∃ (i : Instr) (t : State) (e : EncodedInstruction), decodeTableWord 32 w = some i ∧ i.operation = .encode ∧
      i.format = .R ∧ step (s.withFetchWord 32 w) = .next t ∧ t.pending = s.pending ∧
      t.outcomes = s.outcomes ++ [.encoded e] ∧ val e.binary = w

/-! ## The contract -/

/-- R66, R110 (spec's own, decisions D2, D10, D14): an instruction has a result exactly when its operands are inside
the contract, and is refused otherwise; in every state. -/
def Obligations.ResultExactlyInsideTheContract : Prop :=
  ∀ (i : Instr) (s : State),
    (i.wf = true → ∃ t, exec i s = .next t) ∧
    (i.wf = false → ∃ r, exec i s = .refused (.outOfContract r))

/-- R109, R111 (spec's own, decision D2): an integer outside [0,31] in any register slot is refused, whether or not the
format uses the slot and whatever else is wrong. -/
def Obligations.OutOfRangeRegisterIsRefused : Prop :=
  ∀ (i : Instr) (s : State) (n : Int), (n < 0 ∨ 31 < n) →
    (i.operands.rs1 = some n ∨ i.operands.rs2 = some n ∨ i.operands.rd = some n) →
      exec i s = .refused (.outOfContract .registerOutOfRange)

/-- R110, R111 (spec's own, decisions D10, D16): with registers in range, a character other than '0' and '1' in any bit
string is refused, whether or not the format uses it. -/
def Obligations.BadCharacterIsRefused : Prop :=
  ∀ (i : Instr) (s : State) (c : Char), i.operands.registersInRange = true → c ≠ '0' → c ≠ '1' →
    (c ∈ i.operands.opcode ∨ c ∈ i.operands.funct3 ∨ c ∈ i.operands.funct7) →
      exec i s = .refused (.outOfContract .badBitStringChar)

/-- R110, R111 (spec's own, decisions D14, D16): with registers and bit strings inside the contract, an immediate that
is no integer is refused, in format R too. -/
def Obligations.NonIntegerImmediateIsRefused : Prop :=
  ∀ (i : Instr) (s : State), i.operands.registersInRange = true → i.operands.bitStringsBinary = true →
    i.operands.immediate = .notInteger → exec i s = .refused (.outOfContract .nonIntegerImmediate)

/-- The request of components inside the contract is those components (R17, R21 to R23): the index in each slot, the bit
strings character by character, the integer unchanged. -/
def Obligations.ContractKeepsTheComponents : Prop :=
  ∀ (f : InstructionFormat) (a : Operands), a.wf = true → ∃ sp, contract f a = .ok sp ∧ sp.format = f ∧
    sp.rs1.map (fun n => (n.val : Int)) = a.rs1 ∧ sp.rs2.map (fun n => (n.val : Int)) = a.rs2 ∧
    sp.rd.map (fun n => (n.val : Int)) = a.rd ∧ Immediate.integer sp.immediate = a.immediate ∧
    sp.opcode.map charOfBit = a.opcode ∧ sp.funct3.map charOfBit = a.funct3 ∧ sp.funct7.map charOfBit = a.funct7

/-- R12, R78 and R91 give a request inside the contract its two results. Model's choice, log entry 2: an instruction's
outcome is the one result its operation asks for, while both stand on the output ports, which are spec's own (decision
D4). That nothing else of State changes is over the model's boundary, log entry 1. -/
def Obligations.ExecDeliversBothResults : Prop :=
  ∀ (i : Instr) (s : State), i.wf = true → ∃ (sp : InstructionSpec) (t : State),
    contract i.format i.operands = .ok sp ∧ exec i s = .next t ∧
    s.Answered t (match i.operation with
      | .encode => .encoded (encodeSpec sp)
      | .decompose => .fields (decomposeSpec sp)) ∧
    t.outputs = some (outputImage (encodeSpec sp) (decomposeSpec sp))

/-- The frame of every instruction: the requests still pending, the levels on the inputs and all earlier outcomes stay
as they are (R13, R120: nothing reaches back). The fields it speaks of are the model's boundary, log entry 1. -/
def Obligations.ExecFrame : Prop :=
  ∀ (i : Instr) (s t : State), exec i s = .next t → ∃ x, s.Answered t x

/-! ## The Encoder -/

/-- R70. -/
def Obligations.EncodeRConcatenatesItsRow : Prop :=
  ∀ (a : Operands) (s : State), a.wf = true → ∃ (sp : InstructionSpec) (t : State) (e : EncodedInstruction),
    contract .R a = .ok sp ∧ exec (.encodeR a) s = .next t ∧ s.Answered t (.encoded e) ∧
    e.binary = normalise 7 sp.funct7 ++ reg5 sp.rs2 ++ reg5 sp.rs1 ++ normalise 3 sp.funct3 ++ reg5 sp.rd ++ normalise 7 sp.opcode ∧
    e.hex = hexOf e.binary

/-- R71. -/
def Obligations.EncodeIConcatenatesItsRow : Prop :=
  ∀ (a : Operands) (s : State), a.wf = true → ∃ (sp : InstructionSpec) (t : State) (e : EncodedInstruction),
    contract .I a = .ok sp ∧ exec (.encodeI a) s = .next t ∧ s.Answered t (.encoded e) ∧
    e.binary = low 12 sp.immediate ++ reg5 sp.rs1 ++ normalise 3 sp.funct3 ++ reg5 sp.rd ++ normalise 7 sp.opcode ∧
    e.hex = hexOf e.binary

/-- R72. -/
def Obligations.EncodeSConcatenatesItsRow : Prop :=
  ∀ (a : Operands) (s : State), a.wf = true → ∃ (sp : InstructionSpec) (t : State) (e : EncodedInstruction),
    contract .S a = .ok sp ∧ exec (.encodeS a) s = .next t ∧ s.Answered t (.encoded e) ∧
    e.binary = left (low 12 sp.immediate) 7 ++ reg5 sp.rs2 ++ reg5 sp.rs1 ++ normalise 3 sp.funct3
      ++ right (low 12 sp.immediate) 5 ++ normalise 7 sp.opcode ∧
    e.hex = hexOf e.binary

/-- R73 (spec's own, decision D1; log entry 8): contiguous, as format S. -/
def Obligations.EncodeBConcatenatesItsRow : Prop :=
  ∀ (a : Operands) (s : State), a.wf = true → ∃ (sp : InstructionSpec) (t : State) (e : EncodedInstruction),
    contract .B a = .ok sp ∧ exec (.encodeB a) s = .next t ∧ s.Answered t (.encoded e) ∧
    e.binary = left (low 12 sp.immediate) 7 ++ reg5 sp.rs2 ++ reg5 sp.rs1 ++ normalise 3 sp.funct3
      ++ right (low 12 sp.immediate) 5 ++ normalise 7 sp.opcode ∧
    e.hex = hexOf e.binary

/-- R74. -/
def Obligations.EncodeUConcatenatesItsRow : Prop :=
  ∀ (a : Operands) (s : State), a.wf = true → ∃ (sp : InstructionSpec) (t : State) (e : EncodedInstruction),
    contract .U a = .ok sp ∧ exec (.encodeU a) s = .next t ∧ s.Answered t (.encoded e) ∧
    e.binary = low 20 sp.immediate ++ reg5 sp.rd ++ normalise 7 sp.opcode ∧
    e.hex = hexOf e.binary

/-- R75 (spec's own, decision D1; log entry 8): contiguous, as format U. -/
def Obligations.EncodeJConcatenatesItsRow : Prop :=
  ∀ (a : Operands) (s : State), a.wf = true → ∃ (sp : InstructionSpec) (t : State) (e : EncodedInstruction),
    contract .J a = .ok sp ∧ exec (.encodeJ a) s = .next t ∧ s.Answered t (.encoded e) ∧
    e.binary = low 20 sp.immediate ++ reg5 sp.rd ++ normalise 7 sp.opcode ∧
    e.hex = hexOf e.binary

/-- R54 (spec's own): the number the word denotes, format by format. -/
def Obligations.WordIsItsArithmeticForm : Prop :=
  ∀ sp : InstructionSpec, val (encodeSpec sp).binary = arithmeticWord sp

/-- R80. -/
def Obligations.BinaryHas32Characters : Prop :=
  ∀ sp : InstructionSpec, (encodeSpec sp).binary.length = 32

/-- R81. -/
def Obligations.HexIsShaped : Prop :=
  ∀ sp : InstructionSpec, hexShaped (encodeSpec sp).hex = true

/-- R82. -/
def Obligations.HexAndBinaryDenoteOneWord : Prop :=
  ∀ sp : InstructionSpec, parseHex (encodeSpec sp).hex = some (val (encodeSpec sp).binary)

/-- R77 (the digit alphabet's values are the spec's general knowledge): digit j renders characters 4j to 4j+3. -/
def Obligations.HexDigitRendersFourCharacters : Prop :=
  ∀ (sp : InstructionSpec) (j : Nat), j < 8 →
    (encodeSpec sp).hex[2 + j]? = some (hexDigit (val (slice (encodeSpec sp).binary (4 * j) 4)))

/-- R83: with immediate 0 every immediate slice is zeros; format R has none. -/
def Obligations.ZeroImmediateGivesZeroField : Prop :=
  ∀ sp : InstructionSpec, sp.immediate = 0 → ∀ g ∈ immediateSlices sp.format,
    slice (encodeSpec sp).binary g.1 g.2 = List.replicate g.2 false

/-- R84 in its exact form (spec's own): immediates that agree modulo 2^w give one word, and no character outside the
immediate slices depends on the immediate. -/
def Obligations.ImmediateIsTruncated : Prop :=
  ∀ (sp : InstructionSpec) (v k : Int),
    encodeSpec { sp with immediate := v + k * ((2 ^ immediateWidth sp.format : Nat) : Int) }
      = encodeSpec { sp with immediate := v } ∧
    ∀ n : Nat, inSlices (immediateSlices sp.format) n = false →
      (encodeSpec { sp with immediate := v }).binary[n]? = (encodeSpec sp).binary[n]?

/-- R87 (spec's own, decision D1; log entry 8). -/
def Obligations.SAndBAndUAndJCoincide : Prop :=
  ∀ sp : InstructionSpec,
    encodeSpec { sp with format := .S } = encodeSpec { sp with format := .B } ∧
    encodeSpec { sp with format := .U } = encodeSpec { sp with format := .J } ∧
    decomposeSpec { sp with format := .S } = decomposeSpec { sp with format := .B } ∧
    decomposeSpec { sp with format := .U } = decomposeSpec { sp with format := .J }

/-- R88 (spec's own): requests that agree on the components their format uses have the same results. -/
def Obligations.UnusedInputsAreInvisible : Prop :=
  ∀ sp sp' : InstructionSpec, sp.format = sp'.format →
    (∀ c ∈ fieldSources sp.format, sameComponent sp sp' c) →
      encodeSpec sp = encodeSpec sp' ∧ decomposeSpec sp = decomposeSpec sp'

/-- R86 (spec's own): each slice of the word depends on the one component that supplies it and on nothing else. -/
def Obligations.FieldDependsOnItsComponentAlone : Prop :=
  ∀ sp sp' : InstructionSpec, sp.format = sp'.format →
    ∀ g ∈ (fieldSlices sp.format).zip (fieldSources sp.format), sameComponent sp sp' g.2 →
      slice (encodeSpec sp).binary g.1.1 g.1.2 = slice (encodeSpec sp').binary g.1.1 g.1.2

/-- R56 (a) (spec's own): every 32-bit word is the output of every format for some request. -/
def Obligations.EveryWordIsAnEncoding : Prop :=
  ∀ (f : InstructionFormat) (w : Word), ∃ sp : InstructionSpec, sp.format = f ∧ val (encodeSpec sp).binary = w.toNat

/-- R56 (b) (spec's own): requests of one format with one word have the same rendered used inputs. -/
def Obligations.WordFixesTheRenderedInputs : Prop :=
  ∀ sp sp' : InstructionSpec, sp.format = sp'.format → (encodeSpec sp).hex = (encodeSpec sp').hex →
    ∀ c ∈ fieldSources sp.format, renderedComponent (render sp) c = renderedComponent (render sp') c

/-! ## Renderings and the width policy -/

/-- R63. -/
def Obligations.ImmediateWidths : Prop :=
  immediateWidth .R = 0 ∧ immediateWidth .I = 12 ∧ immediateWidth .S = 12 ∧ immediateWidth .B = 12 ∧
  immediateWidth .U = 20 ∧ immediateWidth .J = 20

/-- R44. -/
def Obligations.ImmediateRendersItsResidue : Prop :=
  ∀ (f : InstructionFormat) (v : Int), (immbits f v).length = immediateWidth f ∧
    (val (immbits f v) : Int) = v % ((2 ^ immediateWidth f : Nat) : Int) ∧
    immbits f v = bin (immediateWidth f) (v % ((2 ^ immediateWidth f : Nat) : Int)).toNat

/-- R46. -/
def Obligations.ShortStringIsZeroPadded : Prop :=
  ∀ (w : Nat) (s : BitString), s.length < w →
    normalise w s = List.replicate (w - s.length) false ++ s ∧ val (normalise w s) = val s

/-- R47 (the side is the spec's own resolution, 90_conflicts.md C1; log entry 13). -/
def Obligations.LongStringKeepsItsRightmostCharacters : Prop :=
  ∀ (w : Nat) (s t : BitString), s.length = w → normalise w (t ++ s) = s ∧ val (normalise w (t ++ s)) = val (t ++ s) % 2 ^ w

/-- R48 in its arithmetic form (spec's own): `normalise` writes the residue of the string's value, in `w` characters, and is
idempotent. -/
def Obligations.NormWritesTheResidue : Prop :=
  ∀ (w : Nat) (s : BitString), normalise w s = bin w (val s % 2 ^ w) ∧ normalise w (normalise w s) = normalise w s

/-- R43, R49 (that the two are indistinguishable at every output is spec's own): an index renders as its five bits, an
unset register as zeros, and no output tells unset from index 0 in any slot. -/
def Obligations.UnsetRegisterIsIndexZero : Prop :=
  (∀ n : Fin 32, reg5 (some n) = bin 5 n.val ∧ val (reg5 (some n)) = n.val) ∧
  reg5 none = [false, false, false, false, false] ∧
  ∀ sp : InstructionSpec,
    (encodeSpec { sp with rs1 := none } = encodeSpec { sp with rs1 := some 0 } ∧
      decomposeSpec { sp with rs1 := none } = decomposeSpec { sp with rs1 := some 0 }) ∧
    (encodeSpec { sp with rs2 := none } = encodeSpec { sp with rs2 := some 0 } ∧
      decomposeSpec { sp with rs2 := none } = decomposeSpec { sp with rs2 := some 0 }) ∧
    (encodeSpec { sp with rd := none } = encodeSpec { sp with rd := some 0 } ∧
      decomposeSpec { sp with rd := none } = decomposeSpec { sp with rd := some 0 })

/-! ## The Decomposer -/

/-- R94 (names and categories: spec's own, decisions D7 and D8; log entry 10). -/
def Obligations.DecomposeRListsItsFields : Prop :=
  ∀ (a : Operands) (s : State), a.wf = true → ∃ (sp : InstructionSpec) (t : State),
    contract .R a = .ok sp ∧ exec (.decomposeR a) s = .next t ∧ s.Answered t (.fields
      [⟨.funct7, 7, normalise 7 sp.funct7, .funct7⟩, ⟨.rs2, 5, reg5 sp.rs2, .rs2⟩, ⟨.rs1, 5, reg5 sp.rs1, .rs1⟩,
       ⟨.funct3, 3, normalise 3 sp.funct3, .funct3⟩, ⟨.rd, 5, reg5 sp.rd, .rd⟩, ⟨.opcode, 7, normalise 7 sp.opcode, .opcode⟩])

/-- R95 (names and categories: spec's own, decisions D7 and D8; log entry 10). -/
def Obligations.DecomposeIListsItsFields : Prop :=
  ∀ (a : Operands) (s : State), a.wf = true → ∃ (sp : InstructionSpec) (t : State),
    contract .I a = .ok sp ∧ exec (.decomposeI a) s = .next t ∧ s.Answered t (.fields
      [⟨.immWhole12, 12, low 12 sp.immediate, .imm⟩, ⟨.rs1, 5, reg5 sp.rs1, .rs1⟩,
       ⟨.funct3, 3, normalise 3 sp.funct3, .funct3⟩, ⟨.rd, 5, reg5 sp.rd, .rd⟩, ⟨.opcode, 7, normalise 7 sp.opcode, .opcode⟩])

/-- R96 (names and categories: spec's own, decisions D7 and D8; log entry 10). -/
def Obligations.DecomposeSListsItsFields : Prop :=
  ∀ (a : Operands) (s : State), a.wf = true → ∃ (sp : InstructionSpec) (t : State),
    contract .S a = .ok sp ∧ exec (.decomposeS a) s = .next t ∧ s.Answered t (.fields
      [⟨.immHigh, 7, left (low 12 sp.immediate) 7, .imm⟩, ⟨.rs2, 5, reg5 sp.rs2, .rs2⟩, ⟨.rs1, 5, reg5 sp.rs1, .rs1⟩,
       ⟨.funct3, 3, normalise 3 sp.funct3, .funct3⟩, ⟨.immLow, 5, right (low 12 sp.immediate) 5, .imm⟩,
       ⟨.opcode, 7, normalise 7 sp.opcode, .opcode⟩])

/-- R97 (spec's own, decisions D1, D7; log entries 8 and 10). -/
def Obligations.DecomposeBListsItsFields : Prop :=
  ∀ (a : Operands) (s : State), a.wf = true → ∃ (sp : InstructionSpec) (t : State),
    contract .B a = .ok sp ∧ exec (.decomposeB a) s = .next t ∧ s.Answered t (.fields
      [⟨.immHigh, 7, left (low 12 sp.immediate) 7, .imm⟩, ⟨.rs2, 5, reg5 sp.rs2, .rs2⟩, ⟨.rs1, 5, reg5 sp.rs1, .rs1⟩,
       ⟨.funct3, 3, normalise 3 sp.funct3, .funct3⟩, ⟨.immLow, 5, right (low 12 sp.immediate) 5, .imm⟩,
       ⟨.opcode, 7, normalise 7 sp.opcode, .opcode⟩])

/-- R98 (spec's own, decision D7; log entry 10). -/
def Obligations.DecomposeUListsItsFields : Prop :=
  ∀ (a : Operands) (s : State), a.wf = true → ∃ (sp : InstructionSpec) (t : State),
    contract .U a = .ok sp ∧ exec (.decomposeU a) s = .next t ∧ s.Answered t (.fields
      [⟨.immWhole20, 20, low 20 sp.immediate, .imm⟩, ⟨.rd, 5, reg5 sp.rd, .rd⟩, ⟨.opcode, 7, normalise 7 sp.opcode, .opcode⟩])

/-- R99 (spec's own, decisions D1, D7; log entries 8 and 10). -/
def Obligations.DecomposeJListsItsFields : Prop :=
  ∀ (a : Operands) (s : State), a.wf = true → ∃ (sp : InstructionSpec) (t : State),
    contract .J a = .ok sp ∧ exec (.decomposeJ a) s = .next t ∧ s.Answered t (.fields
      [⟨.immWhole20, 20, low 20 sp.immediate, .imm⟩, ⟨.rd, 5, reg5 sp.rd, .rd⟩, ⟨.opcode, 7, normalise 7 sp.opcode, .opcode⟩])

/-- R100 for its first part: both calls have a result, and the values of the records, in order, spell the binary string.
Model's choice, log entry 2: that either operation leaves both results, hence equal levels, on the output ports, which
are spec's own (decision D4). -/
def Obligations.DecompositionSpellsTheWord : Prop :=
  ∀ (f : InstructionFormat) (a : Operands) (s : State), a.wf = true →
    ∃ (t u : State) (e : EncodedInstruction) (fs : List BitField),
      exec (instrOf .encode f a) s = .next t ∧ s.Answered t (.encoded e) ∧
      exec (instrOf .decompose f a) s = .next u ∧ s.Answered u (.fields fs) ∧
      (fs.map BitField.value).flatten = e.binary ∧ t.outputs = u.outputs

/-- R101. -/
def Obligations.RecordWidthsSumTo32 : Prop :=
  ∀ sp : InstructionSpec,
    (∀ fd ∈ decomposeSpec sp, fd.value.length = fd.width ∧ fd.width ≠ 0) ∧
    ((decomposeSpec sp).map BitField.width).sum = 32 ∧
    (decomposeSpec sp).map BitField.width =
      match sp.format with
      | .R | .S | .B => [7, 5, 5, 3, 5, 7]
      | .I => [12, 5, 3, 5, 7]
      | .U | .J => [20, 5, 7]

/-- R102 (spec's own): the values are the slices of the word of rule R62. -/
def Obligations.RecordsAreSlicesOfTheWord : Prop :=
  ∀ sp : InstructionSpec, (decomposeSpec sp).map BitField.value =
    (fieldSlices sp.format).map fun g => slice (encodeSpec sp).binary g.1 g.2

/-- R103 (spec's own): names, widths, categories and their order depend on the format alone, and each record's category
is that of its name (R93, decision D8). -/
def Obligations.ShapeDependsOnTheFormatAlone : Prop :=
  ∀ sp sp' : InstructionSpec, sp.format = sp'.format →
    (decomposeSpec sp).map (fun fd => (fd.name, fd.width, fd.category))
      = (decomposeSpec sp').map (fun fd => (fd.name, fd.width, fd.category)) ∧
    ∀ fd ∈ decomposeSpec sp, fd.category = fd.name.category

/-! ## The ports -/

/-- R25, R90, R104, R122 (spec's own, decisions D4, D5, D8, D9, D13; log entries 10, 11 and 18): for every request at the
ports, what the operation leaves on the output ports is the block's Boolean function of the input levels. Model's
choice: that either operation drives both results is log entry 2, and that `blockOutputs` is none for `fmt` 6 and 7 is
log entry 7, since the spec (D18, U4) leaves those outputs unspecified. -/
def Obligations.OutputPortsAreTheBlockFunction : Prop :=
  ∀ (op : Operation) (p : PortInputs) (s : State),
    (∀ i, decode (.ports op p) = .ok i → ∃ (t : State) (o : OutputPorts),
      exec i s = .next t ∧ t.outputs = some o ∧ blockOutputs p = some o) ∧
    (∀ e, decode (.ports op p) = .error e → blockOutputs p = none)
end

