-- ==== Sys2Proof/Laws/Bits.lean ====
section
/-! SUPPORT. What the primitives of Machine/Bits.lean do: lengths, values, and the one way to compare bit
strings (equal length and equal value). -/

namespace Sys2Proof.Laws

@[simp] theorem val_nil : val [] = 0 := rfl

theorem val_foldl (s : BitString) (n : Nat) :
    s.foldl (fun n b => 2 * n + b.toNat) n = n * 2 ^ s.length + val s := by
  induction s generalizing n with
  | nil => simp
  | cons b s ih =>
    have h : val (b :: s) = s.foldl (fun n b => 2 * n + b.toNat) (2 * 0 + b.toNat) := rfl
    rw [h, List.foldl_cons, ih, ih, List.length_cons, Nat.pow_succ]
    ring

theorem val_cons (b : Bool) (s : BitString) : val (b :: s) = b.toNat * 2 ^ s.length + val s := by
  have h := val_foldl s (2 * 0 + b.toNat)
  simpa [val] using h

theorem val_append (s t : BitString) : val (s ++ t) = val s * 2 ^ t.length + val t := by
  simp only [val, List.foldl_append]
  exact val_foldl t _

theorem val_lt (s : BitString) : val s < 2 ^ s.length := by
  induction s with
  | nil => simp
  | cons b s ih =>
    rw [val_cons, List.length_cons, Nat.pow_succ]
    cases b
    · simp; omega
    · simp; omega

@[simp] theorem val_replicate_false (n : Nat) : val (List.replicate n false) = 0 := by
  induction n with
  | zero => rfl
  | succ n ih => rw [List.replicate_succ, val_cons, ih]; simp

@[simp] theorem bin_length (w n : Nat) : (bin w n).length = w := by
  induction w with
  | zero => rfl
  | succ w ih => simp [bin, ih]

@[simp] theorem val_bin (w n : Nat) : val (bin w n) = n % 2 ^ w := by
  induction w with
  | zero => simp [bin, Nat.mod_one]
  | succ w ih =>
    rw [bin, val_cons, bin_length, ih, Nat.mod_pow_succ, Nat.testBit_eq_decide_div_mod_eq]
    rcases Nat.mod_two_eq_zero_or_one (n / 2 ^ w) with h | h
    · simp [h]
    · simp [h]; omega

/-- Bit strings of one length are equal when their values are. -/
theorem eq_of_val_eq {s t : BitString} (hl : s.length = t.length) (hv : val s = val t) : s = t := by
  induction s generalizing t with
  | nil => cases t <;> simp_all
  | cons b s ih =>
    cases t with
    | nil => simp at hl
    | cons c t =>
      simp only [List.length_cons, Nat.add_right_cancel_iff] at hl
      rw [val_cons, val_cons, hl] at hv
      have hs := val_lt s
      have ht := val_lt t
      rw [hl] at hs
      have hb : b = c := by cases b <;> cases c <;> simp at hv ⊢ <;> omega
      subst hb
      rw [ih hl (by omega)]

/-- Writing out the value of a bit string gives the bit string back. -/
theorem bin_val (s : BitString) : bin s.length (val s) = s :=
  eq_of_val_eq (bin_length ..) (by rw [val_bin, Nat.mod_eq_of_lt (val_lt s)])

@[simp] theorem low_length (w : Nat) (v : Int) : (low w v).length = w := bin_length ..

theorem val_low (w : Nat) (v : Int) : (val (low w v) : Int) = v % ((2 ^ w : Nat) : Int) := by
  have hp : (0 : Int) < ((2 ^ w : Nat) : Int) := by exact_mod_cast Nat.two_pow_pos w
  have h0 := Int.emod_nonneg v hp.ne'
  have h1 := Int.emod_lt_of_pos v hp
  rw [low, val_bin, Nat.mod_eq_of_lt (by omega)]
  omega

@[simp] theorem right_length {s : BitString} {n : Nat} (h : n ≤ s.length) : (right s n).length = n := by
  simp [right]; omega

theorem left_append_right (s : BitString) (n : Nat) : left s (s.length - n) ++ right s n = s := by
  simp [left, right]

/-- The rightmost characters keep the low bits. -/
theorem val_right {s : BitString} {n : Nat} (h : n ≤ s.length) : val (right s n) = val s % 2 ^ n := by
  conv_rhs => rw [← left_append_right s n, val_append, right_length h]
  rw [Nat.mul_comm, Nat.mul_add_mod, Nat.mod_eq_of_lt]
  simpa [h] using val_lt (right s n)

@[simp] theorem normalise_length (w : Nat) (s : BitString) : (normalise w s).length = w := by
  unfold normalise
  split
  · simp; omega
  · exact right_length (by omega)

@[simp] theorem val_normalise (w : Nat) (s : BitString) : val (normalise w s) = val s % 2 ^ w := by
  unfold normalise
  split
  · rename_i h
    rw [val_append, val_replicate_false, Nat.zero_mul, Nat.zero_add, Nat.mod_eq_of_lt]
    exact (val_lt s).trans (Nat.pow_lt_pow_right (by decide) h)
  · exact val_right (by omega)

/-- A string of the declared width is unchanged (R48). -/
theorem normalise_of_length_eq {w : Nat} {s : BitString} (h : s.length = w) : normalise w s = s := by
  subst h; simp [normalise, right]

/-- Zero-extending or cutting changes nothing once done (R48). -/
theorem normalise_eq_of_val_eq {w : Nat} {s t : BitString} (h : val s % 2 ^ w = val t % 2 ^ w) : normalise w s = normalise w t :=
  eq_of_val_eq (by simp) (by simpa using h)

/-! Characters. -/

theorem bitOfChar_charOfBit (b : Bool) : bitOfChar (charOfBit b) = some b := by cases b <;> rfl

theorem charOfBit_of_bitOfChar {c : Char} {b : Bool} (h : bitOfChar c = some b) : charOfBit b = c := by
  unfold bitOfChar at h
  split at h
  · cases h; simp_all [charOfBit]
  · split at h
    · cases h; simp_all [charOfBit]
    · cases h

theorem bitsOfChars_map_charOfBit (s : BitString) : bitsOfChars (s.map charOfBit) = some s := by
  induction s with
  | nil => rfl
  | cons b s ih => simp [bitsOfChars, bitOfChar_charOfBit, ih]

/-- A string that spells bits is those bits written out. -/
theorem map_charOfBit_of_bitsOfChars {cs : List Char} {s : BitString} (h : bitsOfChars cs = some s) :
    s.map charOfBit = cs := by
  induction cs generalizing s with
  | nil => cases h; rfl
  | cons c cs ih =>
    unfold bitsOfChars at h
    split at h
    · rename_i b bs hb hbs
      cases h
      simp [charOfBit_of_bitOfChar hb, ih hbs]
    · cases h

/-- The one bit string a character string can spell. -/
theorem bitsOrZero_of_bitsOfChars {cs : List Char} {s : BitString} (h : bitsOfChars cs = some s) :
    bitsOrZero cs = s := by
  have hs := map_charOfBit_of_bitsOfChars h
  subst hs
  induction s with
  | nil => rfl
  | cons b s ih =>
    have := ih (bitsOfChars_map_charOfBit s)
    cases b <;> simp_all [bitsOrZero, charOfBit]

/-! Slices. -/

theorem slice_append_of_le {a : BitString} (b : BitString) {start : Nat} (len : Nat) (h : a.length ≤ start) :
    slice (a ++ b) start len = slice b (start - a.length) len := by
  simp [slice, List.drop_append, List.drop_eq_nil_of_le h]

theorem slice_append_self {a : BitString} (b : BitString) {len : Nat} (h : a.length = len) :
    slice (a ++ b) 0 len = a := by
  subst h; simp [slice]

theorem slice_self {a : BitString} {len : Nat} (h : a.length = len) : slice a 0 len = a := by
  subst h; simp [slice]

@[simp] theorem slice_length {b : BitString} {start len : Nat} (h : start + len ≤ b.length) :
    (slice b start len).length = len := by
  simp [slice]; omega

theorem append_slice_append {b : BitString} {start len : Nat} :
    b.take start ++ (slice b start len ++ b.drop (start + len)) = b := by
  rw [slice, ← List.drop_drop, List.take_append_drop, List.take_append_drop]

/-- The value of a slice is the bits of the value that stand there. -/
theorem val_slice {b : BitString} {start len : Nat} (h : start + len ≤ b.length) :
    val (slice b start len) = val b / 2 ^ (b.length - start - len) % 2 ^ len := by
  have hs := val_lt (slice b start len)
  have hd := val_lt (b.drop (start + len))
  rw [slice_length h] at hs
  rw [List.length_drop, show b.length - (start + len) = b.length - start - len by omega] at hd
  conv_rhs => rw [← append_slice_append (b := b) (start := start) (len := len)]
  rw [val_append, val_append, List.length_append, slice_length h, List.length_drop,
    append_slice_append, show b.length - (start + len) = b.length - start - len by omega, Nat.pow_add,
    show ∀ p q x y z : Nat, x * (p * q) + (y * q + z) = q * (x * p + y) + z by intros; ring,
    Nat.mul_add_div (by positivity), Nat.div_eq_of_lt hd, Nat.add_zero, Nat.mul_comm, Nat.mul_add_mod,
    Nat.mod_eq_of_lt hs]

/-- A bit string, bit by bit of its value. -/
theorem getElem?_eq_testBit {s : BitString} {k : Nat} (h : k < s.length) :
    s[k]? = some ((val s).testBit (s.length - 1 - k)) := by
  induction s generalizing k with
  | nil => simp at h
  | cons b s ih =>
    rw [val_cons]
    cases k with
    | zero =>
      have hs := val_lt s
      cases b
      · simp [Nat.testBit_lt_two_pow hs]
      · simp [Nat.testBit_two_pow_add_eq, Nat.testBit_lt_two_pow hs]
    | succ k =>
      simp only [List.length_cons, Nat.add_lt_add_iff_right] at h
      rw [List.getElem?_cons_succ, ih h, List.length_cons, show s.length + 1 - 1 - (k + 1) = s.length - 1 - k by omega]
      cases b
      · simp
      · simp only [Bool.toNat_true, Nat.one_mul]
        rw [Nat.testBit_two_pow_add_gt (by omega)]

end Sys2Proof.Laws
end

