-- ==== Sys2Proof/Laws/Operands.lean ====
section
/-! SUPPORT. What the contract check accepts and what the renderings are. -/

namespace Sys2Proof.Laws

open Sys2Proof.Machine

theorem bitOfChar_isSome (c : Char) : (bitOfChar c).isSome = (c == '0' || c == '1') := by
  unfold bitOfChar
  by_cases h0 : c = '0'
  · simp [h0]
  · by_cases h1 : c = '1' <;> simp [h0, h1]

theorem bitsOfChars_isSome (cs : List Char) : (bitsOfChars cs).isSome = bitCharsOnly cs := by
  induction cs with
  | nil => rfl
  | cons c cs ih =>
    have h : bitCharsOnly (c :: cs) = ((c == '0' || c == '1') && bitCharsOnly cs) := rfl
    rw [h, ← ih, ← bitOfChar_isSome, bitsOfChars]
    cases bitOfChar c <;> cases bitsOfChars cs <;> rfl

theorem registerReference_some (n : Int) : registerReference (some n) =
    if h : 0 ≤ n ∧ n < 32 then some (some ⟨n.toNat, by omega⟩) else none := rfl

theorem registerReference_isSome (r : Option Int) : (registerReference r).isSome = registerInRange r := by
  cases r with
  | none => rfl
  | some n =>
    have hr : registerInRange (some n) = (decide (0 ≤ n) && decide (n < 32)) := rfl
    rw [registerReference_some, hr, ← Bool.decide_and]
    by_cases h : 0 ≤ n ∧ n < 32
    · rw [dif_pos h, decide_eq_true h, Option.isSome_some]
    · rw [dif_neg h, decide_eq_false h, Option.isSome_none]

/-- A reference inside the contract keeps its index. -/
theorem registerReference_map {r : Option Int} {q : Option (Fin 32)} (h : registerReference r = some q) :
    q.map (fun n => (n.val : Int)) = r := by
  cases r with
  | none => cases h; rfl
  | some n =>
    rw [registerReference_some] at h
    by_cases hn : 0 ≤ n ∧ n < 32
    · rw [dif_pos hn] at h
      cases h
      simp [hn.1]
    · simp [hn] at h

/-- What an accepted request holds. -/
theorem contract_ok {f : InstructionFormat} {a : Operands} {sp : InstructionSpec} (h : contract f a = .ok sp) :
    sp.format = f ∧ registerReference a.rs1 = some sp.rs1 ∧ registerReference a.rs2 = some sp.rs2 ∧
      registerReference a.rd = some sp.rd ∧ bitsOfChars a.opcode = some sp.opcode ∧
      bitsOfChars a.funct3 = some sp.funct3 ∧ bitsOfChars a.funct7 = some sp.funct7 ∧
      a.immediate = .integer sp.immediate := by
  unfold contract at h
  split at h
  · split at h
    · split at h
      · cases h; simp_all
      · cases h
    · cases h
  · cases h

/-- Operands inside the contract are accepted. -/
theorem contract_of_wf (f : InstructionFormat) {a : Operands} (h : a.wf = true) : ∃ sp, contract f a = .ok sp := by
  simp only [Operands.wf, Operands.registersInRange, Operands.bitStringsBinary, Bool.and_eq_true,
    ← registerReference_isSome, ← bitsOfChars_isSome, Option.isSome_iff_exists] at h
  obtain ⟨⟨⟨⟨⟨_, h1⟩, _, h2⟩, _, h3⟩, ⟨⟨_, h4⟩, _, h5⟩, _, h6⟩, h7⟩ := h
  unfold contract
  cases hi : a.immediate with
  | integer v => simp only [h1, h2, h3, h4, h5, h6]; exact ⟨_, rfl⟩
  | notInteger => simp [hi, Immediate.isInteger] at h7

/-- Only operands inside the contract are accepted. -/
theorem wf_of_contract {f : InstructionFormat} {a : Operands} {sp : InstructionSpec} (h : contract f a = .ok sp) :
    a.wf = true := by
  obtain ⟨-, h1, h2, h3, h4, h5, h6, h7⟩ := contract_ok h
  simp only [Operands.wf, Operands.registersInRange, Operands.bitStringsBinary, Bool.and_eq_true,
    ← registerReference_isSome, ← bitsOfChars_isSome, h1, h2, h3, h4, h5, h6, h7, Immediate.isInteger]
  simp

/-- The first reason that applies is the one given (R111). -/
theorem contract_error {f : InstructionFormat} {a : Operands} {e : RefuseReason} (h : contract f a = .error e) :
    (a.registersInRange = false ∧ e = .registerOutOfRange) ∨
    (a.registersInRange = true ∧ a.bitStringsBinary = false ∧ e = .badBitStringChar) ∨
    (a.registersInRange = true ∧ a.bitStringsBinary = true ∧ a.immediate = .notInteger ∧ e = .nonIntegerImmediate) := by
  simp only [Operands.registersInRange, Operands.bitStringsBinary, ← registerReference_isSome, ← bitsOfChars_isSome]
  unfold contract at h
  cases h1 : registerReference a.rs1 <;> cases h2 : registerReference a.rs2 <;> cases h3 : registerReference a.rd <;>
    simp only [h1, h2, h3] at h
  case some.some.some =>
    cases h4 : bitsOfChars a.opcode <;> cases h5 : bitsOfChars a.funct3 <;> cases h6 : bitsOfChars a.funct7 <;>
      simp only [h4, h5, h6] at h
    case some.some.some => cases h7 : a.immediate <;> simp_all
    all_goals simp_all
  all_goals simp_all

@[simp] theorem reg5_length (r : Option (Fin 32)) : (reg5 r).length = 5 := by cases r <;> simp [reg5]

@[simp] theorem immbits_length (f : InstructionFormat) (v : Int) : (immbits f v).length = immediateWidth f :=
  low_length ..

@[simp] theorem render_op7_length (sp : InstructionSpec) : (render sp).op7.length = 7 := normalise_length ..
@[simp] theorem render_f3_length (sp : InstructionSpec) : (render sp).f3.length = 3 := normalise_length ..
@[simp] theorem render_f7_length (sp : InstructionSpec) : (render sp).f7.length = 7 := normalise_length ..
@[simp] theorem render_r1_length (sp : InstructionSpec) : (render sp).r1.length = 5 := reg5_length ..
@[simp] theorem render_r2_length (sp : InstructionSpec) : (render sp).r2.length = 5 := reg5_length ..
@[simp] theorem render_rd5_length (sp : InstructionSpec) : (render sp).rd5.length = 5 := reg5_length ..
@[simp] theorem render_im_length (sp : InstructionSpec) : (render sp).im.length = immediateWidth sp.format :=
  immbits_length ..

end Sys2Proof.Laws
end

