-- ==== Sys2Proof/Laws/Assemble.lean ====
section
/-! SUPPORT. The concatenations have 32 characters, so that the fit of R76 changes nothing. -/

namespace Sys2Proof.Laws

open Sys2Proof.Machine

/-- R76: the fit is the identity on 32 characters. -/
theorem fit32_of_length {raw : BitString} (h : raw.length = 32) : fit32 raw = raw := normalise_of_length_eq h

@[simp] theorem finish_binary_length (raw : BitString) : (finish raw).binary.length = 32 := normalise_length ..

theorem finish_hex (raw : BitString) : (finish raw).hex = hexOf (finish raw).binary := rfl

theorem immHi_length {im : BitString} (h : im.length = 12) : (immHi im).length = 7 := by simp [immHi, left, h]

theorem immLo_length {im : BitString} (h : im.length = 12) : (immLo im).length = 5 := right_length (by rw [h]; decide)

/-- The two immediate groups of formats S and B are the immediate, split. -/
theorem immHi_append_immLo {im : BitString} (h : im.length = 12) : immHi im ++ immLo im = im := by
  simpa [immHi, immLo, h] using left_append_right im 5

theorem encodedR_binary (sp : InstructionSpec) : (encodedR sp).binary = rawR (render sp) :=
  fit32_of_length (by simp [rawR])

theorem encodedI_binary {sp : InstructionSpec} (h : sp.format = .I) : (encodedI sp).binary = rawI (render sp) :=
  fit32_of_length (by simp [rawI, h, immediateWidth])

theorem encodedS_binary {sp : InstructionSpec} (h : sp.format = .S) : (encodedS sp).binary = rawS (render sp) :=
  have hi : (render sp).im.length = 12 := by simp [h, immediateWidth]
  fit32_of_length (by simp [rawS, immHi_length hi, immLo_length hi])

theorem encodedB_binary {sp : InstructionSpec} (h : sp.format = .B) : (encodedB sp).binary = rawB (render sp) :=
  have hi : (render sp).im.length = 12 := by simp [h, immediateWidth]
  fit32_of_length (by simp [rawB, immHi_length hi, immLo_length hi])

theorem encodedU_binary {sp : InstructionSpec} (h : sp.format = .U) : (encodedU sp).binary = rawU (render sp) :=
  fit32_of_length (by simp [rawU, h, immediateWidth])

theorem encodedJ_binary {sp : InstructionSpec} (h : sp.format = .J) : (encodedJ sp).binary = rawJ (render sp) :=
  fit32_of_length (by simp [rawJ, h, immediateWidth])

/-- The binary string is the concatenation of the format's row. -/
theorem encodeSpec_binary (sp : InstructionSpec) : (encodeSpec sp).binary =
    match sp.format with
    | .R => rawR (render sp)
    | .I => rawI (render sp)
    | .S => rawS (render sp)
    | .B => rawB (render sp)
    | .U => rawU (render sp)
    | .J => rawJ (render sp) := by
  cases h : sp.format <;> simp only [encodeSpec, h]
  · exact encodedR_binary sp
  · exact encodedI_binary h
  · exact encodedS_binary h
  · exact encodedB_binary h
  · exact encodedU_binary h
  · exact encodedJ_binary h

/-- Every result is made by `finish`. -/
theorem encodeSpec_eq_finish (sp : InstructionSpec) : ∃ raw, encodeSpec sp = finish raw := by
  cases h : sp.format <;> simp only [encodeSpec, h] <;> exact ⟨_, rfl⟩

/-- Both outputs are functions of the format and the rendered inputs alone (R105). -/
theorem results_of_render_eq {sp sp' : InstructionSpec} (hf : sp.format = sp'.format) (hr : render sp = render sp') :
    encodeSpec sp = encodeSpec sp' ∧ decomposeSpec sp = decomposeSpec sp' := by
  simp [encodeSpec, decomposeSpec, encodedR, encodedI, encodedS, encodedB, encodedU, encodedJ, decomposedR,
    decomposedI, decomposedS, decomposedB, decomposedU, decomposedJ, hf, hr]

end Sys2Proof.Laws
end

