-- ==== Sys2Proof/Laws/State.lean ====
section
/-! SUPPORT. What each update of the state leaves in each field. -/

namespace Sys2Proof.Machine.State

variable (r : Request) (rest : List Request) (sp : InstructionSpec) (x : Answer) (e : RefuseReason) (s : State)
  (nbits w : Nat)

@[simp] theorem reset_pending : State.reset.pending = [] := rfl
@[simp] theorem reset_inputs : State.reset.inputs = none := rfl
@[simp] theorem reset_outputs : State.reset.outputs = none := rfl
@[simp] theorem reset_outcomes : State.reset.outcomes = [] := rfl

@[simp] theorem present_pending : (s.present r rest).pending = rest := rfl
@[simp] theorem present_inputs : (s.present r rest).inputs = requestLevels r := rfl
@[simp] theorem present_outputs : (s.present r rest).outputs = s.outputs := rfl
@[simp] theorem present_outcomes : (s.present r rest).outcomes = s.outcomes := rfl

@[simp] theorem deliver_pending : (s.deliver sp x).pending = s.pending := rfl
@[simp] theorem deliver_inputs : (s.deliver sp x).inputs = s.inputs := rfl
@[simp] theorem deliver_outputs :
    (s.deliver sp x).outputs = some (outputImage (encodeSpec sp) (decomposeSpec sp)) := rfl
@[simp] theorem deliver_outcomes : (s.deliver sp x).outcomes = s.outcomes ++ [x] := rfl

@[simp] theorem decline_pending : (s.decline e).pending = s.pending := rfl
@[simp] theorem decline_inputs : (s.decline e).inputs = s.inputs := rfl
@[simp] theorem decline_outputs : (s.decline e).outputs = none := rfl
@[simp] theorem decline_outcomes : (s.decline e).outcomes = s.outcomes ++ [.refused e] := rfl

@[simp] theorem withFetchWord_pending :
    (s.withFetchWord nbits w).pending = requestOfTableWord nbits w :: s.pending := rfl
@[simp] theorem withFetchWord_inputs : (s.withFetchWord nbits w).inputs = s.inputs := rfl
@[simp] theorem withFetchWord_outputs : (s.withFetchWord nbits w).outputs = s.outputs := rfl
@[simp] theorem withFetchWord_outcomes : (s.withFetchWord nbits w).outcomes = s.outcomes := rfl

end Sys2Proof.Machine.State
end

