-- ==== Sys2Proof/Laws/Ops.lean ====
section
/-! SUPPORT. What `exec` and `step` can do, said once. -/

namespace Sys2Proof.Laws

open Sys2Proof.Machine

/-- The answer an instruction gives for its request. -/
def answerFor (op : Operation) (sp : InstructionSpec) : Answer :=
  match op with
  | .encode => .encoded (encodeSpec sp)
  | .decompose => .fields (decomposeSpec sp)

@[simp] theorem instrOf_self (i : Instr) : instrOf i.operation i.format i.operands = i := by cases i <;> rfl
@[simp] theorem instrOf_format (op : Operation) (f : InstructionFormat) (a : Operands) : (instrOf op f a).format = f := by
  cases op <;> cases f <;> rfl
@[simp] theorem instrOf_operation (op : Operation) (f : InstructionFormat) (a : Operands) :
    (instrOf op f a).operation = op := by cases op <;> cases f <;> rfl
@[simp] theorem instrOf_operands (op : Operation) (f : InstructionFormat) (a : Operands) :
    (instrOf op f a).operands = a := by cases op <;> cases f <;> rfl

/-- A meaning inside the contract delivers. -/
theorem answerWith_of_ok {f : InstructionFormat} {a : Operands} {sp : InstructionSpec} (result : InstructionSpec → Answer)
    (s : State) (h : contract f a = .ok sp) : answerWith f a result s = .next (s.deliver sp (result sp)) := by
  simp [answerWith, h]

/-- A meaning outside the contract refuses. -/
theorem answerWith_of_error {f : InstructionFormat} {a : Operands} {e : RefuseReason} (result : InstructionSpec → Answer)
    (s : State) (h : contract f a = .error e) : answerWith f a result s = .refused (.outOfContract e) := by
  simp [answerWith, h]

/-- Every instruction inside the contract delivers the answer of its operation. -/
theorem exec_of_ok {i : Instr} {sp : InstructionSpec} (s : State) (h : contract i.format i.operands = .ok sp) :
    exec i s = .next (s.deliver sp (answerFor i.operation sp)) := by
  have hf := (contract_ok h).1
  cases i <;>
    simp only [Instr.format, Instr.operands, Instr.operation, answerFor, encodeSpec, decomposeSpec] at h hf ⊢ <;>
    simp only [hf] <;> exact answerWith_of_ok _ s h

/-- Every instruction outside the contract refuses, for the reason the contract gives. -/
theorem exec_of_error {i : Instr} {e : RefuseReason} (s : State) (h : contract i.format i.operands = .error e) :
    exec i s = .refused (.outOfContract e) := by
  cases i <;> exact answerWith_of_error _ s h

/-- If `exec` answers a next state, it delivered. -/
theorem exec_next {i : Instr} {s t : State} (h : exec i s = .next t) :
    ∃ sp, contract i.format i.operands = .ok sp ∧ t = s.deliver sp (answerFor i.operation sp) := by
  cases hc : contract i.format i.operands with
  | ok sp => rw [exec_of_ok s hc] at h; cases h; exact ⟨sp, rfl, rfl⟩
  | error e => rw [exec_of_error s hc] at h; cases h

/-- What becomes of one request: its answer, and the levels it leaves on the outputs. -/
def outcomeOf (r : Request) : Answer × Option OutputPorts :=
  match decode r with
  | .error e => (.refused e, none)
  | .ok i =>
    match contract i.format i.operands with
    | .error e => (.refused e, none)
    | .ok sp => (answerFor i.operation sp, some (outputImage (encodeSpec sp) (decomposeSpec sp)))

/-- The one thing a step with a request pending does. -/
theorem step_of_pending {s : State} {r : Request} {rest : List Request} (h : s.pending = r :: rest) :
    step s = .next { pending := rest, inputs := requestLevels r, outputs := (outcomeOf r).2,
                     outcomes := s.outcomes ++ [(outcomeOf r).1] } := by
  unfold step outcomeOf
  rw [h]
  cases hd : decode r with
  | error e => simp only [hd]; rfl
  | ok i =>
    cases hc : contract i.format i.operands with
    | error e => simp only [hd, hc, exec_of_error _ hc, settle]; rfl
    | ok sp => simp only [hd, hc, exec_of_ok _ hc, settle]; rfl

/-- The one thing a step with nothing pending does. -/
theorem step_of_idle {s : State} (h : s.pending = []) : step s = .next s := by
  simp [step, h]

end Sys2Proof.Laws
end

