-- ==== Sys2Proof/Laws/PerInstr.lean ====
section
/-! SUPPORT. Per instruction: presented at the abstract interface, it is decoded as itself, every operand kept. -/

namespace Sys2Proof.Laws.Presentation

/-- An instruction presented as a request is decoded as itself. -/
def Statement (i : Instr) : Prop := decode (presentAbstract i) = .ok i

theorem encodeR (a : Operands) : Statement (.encodeR a) := rfl
theorem encodeI (a : Operands) : Statement (.encodeI a) := rfl
theorem encodeS (a : Operands) : Statement (.encodeS a) := rfl
theorem encodeB (a : Operands) : Statement (.encodeB a) := rfl
theorem encodeU (a : Operands) : Statement (.encodeU a) := rfl
theorem encodeJ (a : Operands) : Statement (.encodeJ a) := rfl
theorem decomposeR (a : Operands) : Statement (.decomposeR a) := rfl
theorem decomposeI (a : Operands) : Statement (.decomposeI a) := rfl
theorem decomposeS (a : Operands) : Statement (.decomposeS a) := rfl
theorem decomposeB (a : Operands) : Statement (.decomposeB a) := rfl
theorem decomposeU (a : Operands) : Statement (.decomposeU a) := rfl
theorem decomposeJ (a : Operands) : Statement (.decomposeJ a) := rfl

end Sys2Proof.Laws.Presentation
end

