-- ==== Sys2Proof/Laws/Ports.lean ====
section
/-! SUPPORT. Requests at the ports: the request a set of levels makes, the image of a request on the levels, and
the values of the rendered groups and of the port word. -/

namespace Sys2Proof.Laws

open Sys2Proof.Machine

/-! Values of the rendered groups. -/

/-- The number of a rendered register. -/
def indexOf (r : Option (Fin 32)) : Nat := (r.map Fin.val).getD 0

theorem val_reg5 (r : Option (Fin 32)) : val (reg5 r) = indexOf r := by
  cases r with
  | none => decide
  | some n => simp [reg5, indexOf, Nat.mod_eq_of_lt n.isLt]

theorem val_low_toNat (w : Nat) (v : Int) : val (low w v) = (v % ((2 ^ w : Nat) : Int)).toNat := by
  have := val_low w v; omega

theorem val_immHi {im : BitString} (h : im.length = 12) : val (immHi im) = val im / 32 := by
  have hs := val_slice (b := im) (start := 0) (len := 7) (by omega)
  have hl := val_lt im
  simp only [slice, List.drop_zero, h] at hs hl
  simp only [immHi, left, Config.immHiWidth, hs]
  norm_num
  omega

theorem val_immLo {im : BitString} (h : im.length = 12) : val (immLo im) = val im % 32 := by
  rw [immLo, val_right (by rw [h]; decide)]; rfl

/-! The format code (R59). -/

@[simp] theorem formatOfCode_codeOf (f : InstructionFormat) : formatOfCode (codeOf f) = .ok f := by cases f <;> rfl

theorem codeOf_of_formatOfCode {c : BitVec 3} {f : InstructionFormat} (h : formatOfCode c = .ok f) : c = codeOf f := by
  revert c; cases f <;> decide

theorem formatOfCode_of_ge {c : BitVec 3} (h : 6 ≤ c.toNat) : formatOfCode c = .error .badFormatTag := by
  revert c; decide

/-! From levels to a request (R24). -/

/-- The request that levels on the ports make in a format. -/
def specOfPorts (f : InstructionFormat) (p : PortInputs) : InstructionSpec where
  format    := f
  rs1       := if p.rs1Present then some p.rs1.toFin else none
  rs2       := if p.rs2Present then some p.rs2.toFin else none
  rd        := if p.rdPresent then some p.rd.toFin else none
  immediate := p.imm.toInt
  opcode    := bin 7 p.opcode.toNat
  funct3    := bin 3 p.funct3.toNat
  funct7    := bin 7 p.funct7.toNat

theorem registerReference_slotOfPorts (present : Bool) (n : BitVec 5) :
    registerReference (slotOfPorts present n) = some (if present then some n.toFin else none) := by
  cases present
  · rfl
  · have hn := n.isLt
    simp only [slotOfPorts, if_true, registerReference_some]
    rw [dif_pos (by omega)]
    simp

theorem bitsOfChars_charsOfPort {w : Nat} (x : BitVec w) : bitsOfChars (charsOfPort x) = some (bin w x.toNat) :=
  bitsOfChars_map_charOfBit _

/-- Levels on the ports are always inside the contract, but for the format code (R24). -/
theorem contract_operandsOfPorts (f : InstructionFormat) (p : PortInputs) :
    contract f (operandsOfPorts p) = .ok (specOfPorts f p) := by
  simp [contract, operandsOfPorts, registerReference_slotOfPorts, bitsOfChars_charsOfPort, specOfPorts]

/-! From a request to levels (R26). -/

theorem slotOfPorts_portOfSlot {r : Option Int} (h : registerInRange r = true) :
    slotOfPorts r.isSome (portOfSlot r) = r := by
  cases r with
  | none => rfl
  | some n =>
    simp [registerInRange] at h
    simp [slotOfPorts, portOfSlot, BitVec.toNat_ofInt]
    omega

theorem portOfSlot_slotOfPorts (present : Bool) (n : BitVec 5) :
    portOfSlot (slotOfPorts present n) = if present then n else 0 := by
  cases present
  · rfl
  · simp [slotOfPorts, portOfSlot]

theorem charsOfPort_portOfChars {w : Nat} {cs : List Char} (h : bitCharsOnly cs = true) (hl : cs.length = w) :
    charsOfPort (portOfChars w cs) = cs := by
  rw [← bitsOfChars_isSome, Option.isSome_iff_exists] at h
  obtain ⟨s, hs⟩ := h
  have hm := map_charOfBit_of_bitsOfChars hs
  have hw : s.length = w := by rw [← hl, ← hm]; simp
  subst hw
  simp only [charsOfPort, portOfChars, bitsOrZero_of_bitsOfChars hs, normalise_of_length_eq rfl]
  rw [BitVec.toNat_ofNat, Nat.mod_eq_of_lt (val_lt s), bin_val, hm]

theorem portOfChars_charsOfPort {w : Nat} (x : BitVec w) : portOfChars w (charsOfPort x) = x := by
  simp [portOfChars, bitsOrZero_of_bitsOfChars (bitsOfChars_charsOfPort x)]

/-! The port word (R90). -/

theorem toNat_append_add {n m : Nat} (x : BitVec n) (y : BitVec m) : (x ++ y).toNat = x.toNat * 2 ^ m + y.toNat := by
  rw [BitVec.toNat_append, ← Nat.shiftLeft_add_eq_or_of_lt y.isLt, Nat.shiftLeft_eq]

theorem portWord_toNat (f : InstructionFormat) (p : PortInputs) :
    (portWord f p).toNat =
      match f with
      | .R => p.funct7.toNat * 2 ^ 25 + (gated p.rs2Present p.rs2).toNat * 2 ^ 20
          + (gated p.rs1Present p.rs1).toNat * 2 ^ 15 + p.funct3.toNat * 2 ^ 12
          + (gated p.rdPresent p.rd).toNat * 2 ^ 7 + p.opcode.toNat
      | .I => p.imm.toNat % 4096 * 2 ^ 20 + (gated p.rs1Present p.rs1).toNat * 2 ^ 15 + p.funct3.toNat * 2 ^ 12
          + (gated p.rdPresent p.rd).toNat * 2 ^ 7 + p.opcode.toNat
      | .S | .B => p.imm.toNat / 32 % 128 * 2 ^ 25 + (gated p.rs2Present p.rs2).toNat * 2 ^ 20
          + (gated p.rs1Present p.rs1).toNat * 2 ^ 15 + p.funct3.toNat * 2 ^ 12
          + p.imm.toNat % 32 * 2 ^ 7 + p.opcode.toNat
      | .U | .J => p.imm.toNat % 1048576 * 2 ^ 12 + (gated p.rdPresent p.rd).toNat * 2 ^ 7 + p.opcode.toNat := by
  cases f
  · change @BitVec.toNat (7 + 5 + 5 + 3 + 5 + 7) _ = _
    simp only [portWord, toNat_append_add]; omega
  · change @BitVec.toNat (12 + 5 + 3 + 5 + 7) _ = _
    simp only [portWord, toNat_append_add, BitVec.extractLsb'_toNat, Nat.shiftRight_zero]; omega
  iterate 2
    · change @BitVec.toNat (7 + 5 + 5 + 3 + 5 + 7) _ = _
      simp only [portWord, toNat_append_add, BitVec.extractLsb'_toNat, Nat.shiftRight_eq_div_pow]; omega
  iterate 2
    · change @BitVec.toNat (20 + 5 + 7) _ = _
      simp only [portWord, toNat_append_add, BitVec.extractLsb'_toNat, Nat.shiftRight_zero]; omega

end Sys2Proof.Laws
end

