-- ==== Sys2Proof/Tests/Slice0.lean ====
section
/-! SUPPORT. Small tests: the checks of WellFormed, decoding of port values written out from the spec, each
instruction on vectors of 95_test_vectors.md, and a witness for the hypotheses of every statement. -/

namespace Sys2Proof.Tests

open Sys2Proof Sys2Proof.Machine

/-- Operands in the notation of R60: components not written are unset, empty or 0. -/
def ops (opcode funct3 funct7 : String) (rs1 rs2 rd : Option Int) (imm : Int) : Operands :=
  ⟨rs1, rs2, rd, .integer imm, opcode.toList, funct3.toList, funct7.toList⟩

def nextOf : Host.Outcome State Fault Refusal → Option State
  | .next t => some t
  | _ => none

def refusalOf : Host.Outcome State Fault Refusal → Option Refusal
  | .refused r => some r
  | _ => none

/-- The outcomes an instruction leaves from reset. -/
def outcomesOf (i : Instr) : Option (List Answer) := (nextOf (exec i State.reset)).map (·.outcomes)

/-- The hex string an ENCODE leaves. -/
def hexOfRun (i : Instr) : Option (List Char) :=
  match outcomesOf i with
  | some [.encoded e] => some e.hex
  | _ => none

/-- The names and values of the records a DECOMPOSE leaves, and their categories. -/
def recordsOfRun (i : Instr) : Option (List (FieldName × List Char × Category)) :=
  match outcomesOf i with
  | some [.fields fs] => some (fs.map fun f => (f.name, f.value.map charOfBit, f.category))
  | _ => none

/-! WellFormed: one ill-formed term for each check (vectors X1 to X7). -/

def good : Operands := ops "0110011" "000" "0000000" (some 1) (some 2) (some 3) 0

theorem test_wf_good : (Instr.encodeR good).wf = true := by decide
theorem test_wf_rs1_32 : (Instr.encodeR { good with rs1 := some 32 }).wf = false := by decide
theorem test_wf_rs2_negative : (Instr.encodeR { good with rs2 := some (-1) }).wf = false := by decide
theorem test_wf_rd_40 : (Instr.decomposeU { good with rd := some 40 }).wf = false := by decide
theorem test_wf_opcode_x : (Instr.encodeI { good with opcode := "00x0011".toList }).wf = false := by decide
theorem test_wf_funct3_2 : (Instr.encodeI { good with funct3 := "2".toList }).wf = false := by decide
theorem test_wf_funct7_2 : (Instr.decomposeS { good with funct7 := "0002".toList }).wf = false := by decide
theorem test_wf_notInteger : (Instr.encodeR { good with immediate := .notInteger }).wf = false := by decide

/-! Decoding: port values written out from R24, R59 and the vectors H1 to H7 of section 2.11. -/

def portsH1 : PortInputs := ⟨0, true, 1, true, 2, true, 3, 0x00000000, 0b0110011, 0b000, 0b0000000⟩
def portsH2 : PortInputs := ⟨1, true, 2, false, 0, true, 5, 0x00000004, 0b0000011, 0b010, 0b0000000⟩
def portsH3 : PortInputs := ⟨2, true, 2, true, 5, false, 0, 0xFFFFFFFC, 0b0100011, 0b010, 0b0000000⟩
def portsH4 : PortInputs := ⟨3, true, 10, true, 11, false, 0, 0xFFFFFFF8, 0b1100011, 0b001, 0b0000000⟩
def portsH5 : PortInputs := ⟨4, false, 0, false, 0, true, 1, 0x000FFFFF, 0b0110111, 0b000, 0b0000000⟩
def portsH6 : PortInputs := ⟨5, false, 0, false, 0, true, 0, 0xFFFFFFFE, 0b1101111, 0b000, 0b0000000⟩

def opsH1 : Operands := ops "0110011" "000" "0000000" (some 1) (some 2) (some 3) 0
def opsH2 : Operands := ops "0000011" "010" "0000000" (some 2) none (some 5) 4
def opsH3 : Operands := ops "0100011" "010" "0000000" (some 2) (some 5) none (-4)
def opsH4 : Operands := ops "1100011" "001" "0000000" (some 10) (some 11) none (-8)
def opsH5 : Operands := ops "0110111" "000" "0000000" none none (some 1) 1048575
def opsH6 : Operands := ops "1101111" "000" "0000000" none none (some 0) (-2)

/-- `decode` answers this instruction (a Bool, for `decide`). -/
def decodesTo (r : Request) (i : Instr) : Bool :=
  match decode r with
  | .ok j => decide (j = i)
  | .error _ => false

/-- `decode` refuses for this reason. -/
def decodeRefuses (r : Request) (e : RefuseReason) : Bool :=
  match decode r with
  | .ok _ => false
  | .error e' => decide (e' = e)

theorem test_decode_encodeR : decodesTo (.ports .encode portsH1) (.encodeR opsH1) = true := by decide
theorem test_decode_encodeI : decodesTo (.ports .encode portsH2) (.encodeI opsH2) = true := by decide
theorem test_decode_encodeS : decodesTo (.ports .encode portsH3) (.encodeS opsH3) = true := by decide
theorem test_decode_encodeB : decodesTo (.ports .encode portsH4) (.encodeB opsH4) = true := by decide
theorem test_decode_encodeU : decodesTo (.ports .encode portsH5) (.encodeU opsH5) = true := by decide
theorem test_decode_encodeJ : decodesTo (.ports .encode portsH6) (.encodeJ opsH6) = true := by decide
theorem test_decode_decomposeR : decodesTo (.ports .decompose portsH1) (.decomposeR opsH1) = true := by decide
theorem test_decode_decomposeI : decodesTo (.ports .decompose portsH2) (.decomposeI opsH2) = true := by decide
theorem test_decode_decomposeS : decodesTo (.ports .decompose portsH3) (.decomposeS opsH3) = true := by decide
theorem test_decode_decomposeB : decodesTo (.ports .decompose portsH4) (.decomposeB opsH4) = true := by decide
theorem test_decode_decomposeU : decodesTo (.ports .decompose portsH5) (.decomposeU opsH5) = true := by decide
theorem test_decode_decomposeJ : decodesTo (.ports .decompose portsH6) (.decomposeJ opsH6) = true := by decide
/-- X6. -/
theorem test_decode_tag_Q : decodeRefuses (.abstract .encode 'Q' good) .badFormatTag = true := by decide
/-- X8: the format is checked before the operands. -/
theorem test_decode_tag_Q_first :
    decodeRefuses (.abstract .encode 'Q' (ops "2" "" "" (some 99) none none 0)) .badFormatTag = true := by decide
theorem test_decode_tag_U : decodesTo (.abstract .decompose 'U' opsH5) (.decomposeU opsH5) = true := by decide
theorem test_decode_fmt_6 : decodeRefuses (.ports .encode { portsH1 with fmt := 6 }) .badFormatTag = true := by decide
theorem test_decode_fmt_7 : decodeRefuses (.ports .decompose { portsH1 with fmt := 7 }) .badFormatTag = true := by decide
/-- An index that is not present is ignored (R24). -/
theorem test_decode_absent_index_ignored :
    decodesTo (.ports .encode { portsH5 with rs1 := 17 }) (.encodeU opsH5) = true := by decide
/-- S4's word, 0x002081B3, as a table word. -/
theorem test_decodeTableWord_S4 : decodeTableWord 32 0x002081B3 = some (.encodeR opsH1) := by decide
theorem test_decodeTableWord_long : decodeTableWord 48 0 = none := by decide
/-- The step after presenting a table word delivers it. -/
theorem test_withFetchWord_S4 :
    ((nextOf (step (State.reset.withFetchWord 32 0x002081B3))).bind (·.outputs)).map (·.word) = some 0x002081B3#32 := by
  decide

/-! Encoder vectors (sections 2.3 to 2.9): the hex string. -/

theorem test_encodeR_V_R1 :
    hexOfRun (.encodeR (ops "0110011" "000" "0100000" (some 6) (some 7) (some 5) 0)) = some "0x407302B3".toList := by decide
theorem test_encodeR_V_N2 :
    hexOfRun (.encodeR (ops "110110011" "1010" "10000001" none none none 0)) = some "0x02002033".toList := by decide
theorem test_encodeI_V_I6 :
    hexOfRun (.encodeI (ops "0010011" "000" "" (some 0) none (some 10) 0x1234)) = some "0x23400513".toList := by decide
theorem test_encodeI_P5_1 :
    hexOfRun (.encodeI (ops "10011" "" "" none none (some 7) 70000)) = some "0x17000393".toList := by decide
theorem test_encodeS_V_S5 :
    hexOfRun (.encodeS (ops "0100011" "010" "" (some 2) (some 5) none 32)) = some "0x02512023".toList := by decide
theorem test_encodeS_V_S2 :
    hexOfRun (.encodeS (ops "0100011" "010" "" (some 2) (some 5) none (-4))) = some "0xFE512E23".toList := by decide
theorem test_encodeB_V_B3 :
    hexOfRun (.encodeB (ops "1100011" "000" "" (some 1) (some 2) none 1)) = some "0x002080E3".toList := by decide
theorem test_encodeB_V_B2 :
    hexOfRun (.encodeB (ops "1100011" "001" "" (some 10) (some 11) none (-8))) = some "0xFEB51C63".toList := by decide
theorem test_encodeU_V_U8 :
    hexOfRun (.encodeU (ops "0110111" "" "" none none (some 10) 0x12345000)) = some "0x45000537".toList := by decide
theorem test_encodeU_S2 :
    hexOfRun (.encodeU (ops "0110111" "" "" none none (some 1) 0xFFFFF)) = some "0xFFFFF0B7".toList := by decide
theorem test_encodeJ_V_J3 :
    hexOfRun (.encodeJ (ops "1101111" "" "" none none (some 1) 0x12345)) = some "0x123450EF".toList := by decide
theorem test_encodeJ_V_J4 :
    hexOfRun (.encodeJ (ops "1101111" "" "" none none none 2048)) = some "0x0080006F".toList := by decide

/-! Decomposer vectors (section 2.10). -/

theorem test_decomposeR_D_R2 :
    recordsOfRun (.decomposeR (ops "0110011" "000" "0000000" (some 1) (some 2) (some 3) (-1))) = some
      [(.funct7, "0000000".toList, .funct7), (.rs2, "00010".toList, .rs2), (.rs1, "00001".toList, .rs1),
       (.funct3, "000".toList, .funct3), (.rd, "00011".toList, .rd), (.opcode, "0110011".toList, .opcode)] := by decide
theorem test_decomposeI_D_I2 :
    recordsOfRun (.decomposeI (ops "0010011" "000" "" (some 0) none (some 10) 4096)) = some
      [(.immWhole12, "000000000000".toList, .imm), (.rs1, "00000".toList, .rs1), (.funct3, "000".toList, .funct3),
       (.rd, "01010".toList, .rd), (.opcode, "0010011".toList, .opcode)] := by decide
theorem test_decomposeS_D_S1 :
    recordsOfRun (.decomposeS (ops "0100011" "010" "" (some 2) (some 5) none (-4))) = some
      [(.immHigh, "1111111".toList, .imm), (.rs2, "00101".toList, .rs2), (.rs1, "00010".toList, .rs1),
       (.funct3, "010".toList, .funct3), (.immLow, "11100".toList, .imm), (.opcode, "0100011".toList, .opcode)] := by decide
theorem test_decomposeB_D_B1 :
    recordsOfRun (.decomposeB (ops "1100011" "001" "" (some 10) (some 11) none (-8))) = some
      [(.immHigh, "1111111".toList, .imm), (.rs2, "01011".toList, .rs2), (.rs1, "01010".toList, .rs1),
       (.funct3, "001".toList, .funct3), (.immLow, "11000".toList, .imm), (.opcode, "1100011".toList, .opcode)] := by decide
theorem test_decomposeU_D_U2 :
    recordsOfRun (.decomposeU (ops "0110111" "111" "1111111" (some 31) (some 31) (some 10) 0)) = some
      [(.immWhole20, "00000000000000000000".toList, .imm), (.rd, "01010".toList, .rd),
       (.opcode, "0110111".toList, .opcode)] := by decide
theorem test_decomposeJ_D_J1 :
    recordsOfRun (.decomposeJ (ops "1101111" "" "" none none (some 0) (-2))) = some
      [(.immWhole20, "11111111111111111110".toList, .imm), (.rd, "00000".toList, .rd),
       (.opcode, "1101111".toList, .opcode)] := by decide

/-! The output ports (section 2.11). -/

/-- H2: five records, the sixth slot empty. -/
theorem test_ports_H2_fields :
    ((nextOf (step (State.alone (.ports .encode portsH2)))).bind (·.outputs)).map (fun o => (o.nfields, o.fields)) =
      some (5#3, [⟨12, 0x4, 6, 7⟩, ⟨5, 0x2, 2, 3⟩, ⟨3, 0x2, 3, 4⟩, ⟨5, 0x5, 4, 5⟩, ⟨7, 0x3, 5, 6⟩, ⟨0, 0, 0, 0⟩]) := by decide
/-- H1: the ten bytes of the `hex` port. -/
theorem test_ports_H1_hex :
    ((nextOf (step (State.alone (.ports .decompose portsH1)))).bind (·.outputs)).map (·.hex) =
      some [0x30, 0x78, 0x30, 0x30, 0x32, 0x30, 0x38, 0x31, 0x42, 0x33] := by decide
/-- H4 by the hardware form. -/
theorem test_block_H4 :
    (blockOutputs portsH4).map (fun o => (o.word, o.fields)) =
      some (0xFEB51C63#32, [⟨7, 0x7F, 6, 8⟩, ⟨5, 0xB, 1, 2⟩, ⟨5, 0xA, 2, 3⟩, ⟨3, 0x1, 3, 4⟩, ⟨5, 0x18, 6, 9⟩, ⟨7, 0x63, 5, 6⟩]) := by
  decide
theorem test_block_fmt_6 : blockOutputs { portsH1 with fmt := 6 } = none := by decide

/-! Refusals (section 2.12). -/

theorem test_refuse_X1 : refusalOf (exec (.encodeR (ops "0110011" "" "" (some 32) none none 0)) State.reset) =
    some (.outOfContract .registerOutOfRange) := by decide
theorem test_refuse_X3 : refusalOf (exec (.encodeU (ops "0110111" "" "" (some 40) none (some 1) 0)) State.reset) =
    some (.outOfContract .registerOutOfRange) := by decide
theorem test_refuse_X5 : refusalOf (exec (.encodeI (ops "0010011" "2" "" (some 1) none (some 1) 0)) State.reset) =
    some (.outOfContract .badBitStringChar) := by decide
theorem test_refuse_X7 : refusalOf (exec (.encodeI { good with immediate := .notInteger }) State.reset) =
    some (.outOfContract .nonIntegerImmediate) := by decide
theorem test_refuse_X9 : refusalOf (exec (.encodeI (ops "0010011" "0002" "" (some 99) none (some 1) 0)) State.reset) =
    some (.outOfContract .registerOutOfRange) := by decide
/-- P4 step 3: the refusal is recorded and leaves no outputs. -/
theorem test_step_P4_3 :
    (nextOf (step (State.alone (.abstract .encode 'I' (ops "0000011" "010" "" (some 32) none (some 5) 4))))).map
      (fun t => (t.pending, t.outputs, t.outcomes)) = some ([], none, [.refused .registerOutOfRange]) := by decide

/-! Witnesses: a state and operands that meet the hypotheses of each statement that has some. -/

def reqA : Request := .abstract .encode 'I' opsH2
def reqX : Request := .abstract .encode 'I' { opsH2 with rs1 := some 32 }
def reqQ : Request := .abstract .encode 'Q' opsH2
/-- A state with earlier outcomes, levels and requests. -/
def busy : State :=
  { pending := [reqA, reqX], inputs := some portsH1, outputs := blockOutputs portsH1,
    outcomes := [.refused .badFormatTag] }
/-- Long and short strings, a wide immediate (P5 step 2). -/
def ragged : Operands := ops "1110100011" "11010" "" none (some 9) none (-70000)
/-- Components that just fit the ports. -/
def edge : Operands := ops "1111111" "111" "1111111" (some 31) (some 0) none (-2147483648)
def edgeHigh : Operands := ops "0000000" "000" "0000000" none (some 31) (some 31) 2147483647
def spec0 (f : InstructionFormat) : InstructionSpec := ⟨f, some 1, none, some 31, 0, [true], [], [true, false]⟩

theorem witness_StepRunsTheDecodedInstruction :
    busy.pending = reqA :: [reqX] ∧ decodesTo reqA (.encodeI opsH2) = true ∧ (Instr.encodeI opsH2).wf = true := by decide
theorem witness_RefusedRequestIsRecorded_decode :
    (State.alone reqQ).pending = [reqQ] ∧ decodeRefuses reqQ .badFormatTag = true := by decide
theorem witness_RefusedRequestIsRecorded_contract :
    (State.alone reqX).pending = [reqX] ∧ decode reqX = .ok (.encodeI { opsH2 with rs1 := some 32 }) ∧
      contract .I { opsH2 with rs1 := some 32 } = .error .registerOutOfRange := ⟨rfl, rfl, rfl⟩
theorem witness_IdleStepChangesNothing : ({ busy with pending := [] } : State).pending = [] := rfl
theorem witness_AnswerDependsOnTheRequestAlone :
    busy.pending = reqA :: [reqX] ∧ (State.alone reqA).pending = reqA :: [] ∧ busy ≠ State.alone reqA := by decide
theorem witness_RepeatedRequestRepeatsItsOutcome :
    ({ busy with pending := [reqA, reqA, reqX] } : State).pending = reqA :: reqA :: [reqX] := rfl
theorem witness_RequestsAreIndependent :
    busy.pending = [reqA, reqX] ++ [] ∧ [reqA, reqX][1]? = some reqX := ⟨rfl, rfl⟩
theorem witness_StepKeepsTheInvariant : busy.Inv ∧ ∃ t, step busy = .next t := by
  refine ⟨⟨rfl, ?_⟩, _, rfl⟩
  simp [busy, Answer.shaped]
theorem witness_FormatCodesSelectTheRow :
    portsH1.fmt = codeOf .R ∧ portsH6.fmt = codeOf .J ∧ 6 ≤ ({ portsH1 with fmt := 6 } : PortInputs).fmt.toNat ∧
      6 ≤ ({ portsH1 with fmt := 7 } : PortInputs).fmt.toNat := by decide
theorem witness_OnlyTheSixTagsAreFormats :
    'R' = tagOf .R ∧ 'J' = tagOf .J ∧ ∀ f : InstructionFormat, 'Q' ≠ tagOf f :=
  ⟨rfl, rfl, fun f => by cases f <;> decide⟩
theorem witness_DecodeEncodeRoundTrip : edge.fitsPorts = true ∧ edgeHigh.fitsPorts = true := by decide
theorem witness_EncodeDecodeKeepsTheLevels : decodesTo (.ports .encode portsH6) (.encodeJ opsH6) = true := by decide
theorem witness_PortImageLosesNothing : (Instr.encodeS ragged).wf = true ∧ ragged.fitsPorts = false := by decide
theorem witness_TableWordRunsFirst : 0 < 2 ^ 32 ∧ 0xFFFFFFFF < 2 ^ 32 := by decide
theorem witness_ResultExactlyInsideTheContract :
    (Instr.decomposeJ ragged).wf = true ∧ (Instr.decomposeJ { ragged with rd := some 32 }).wf = false := by decide
theorem witness_OutOfRangeRegisterIsRefused :
    ((32 : Int) < 0 ∨ 31 < (32 : Int)) ∧ ((-1 : Int) < 0 ∨ 31 < (-1 : Int)) ∧
      ({ good with rs1 := some 32 } : Operands).rs1 = some 32 ∧ ({ good with rs2 := some (-1) } : Operands).rs2 = some (-1) ∧
      ({ good with rd := some 32 } : Operands).rd = some 32 := by decide
theorem witness_BadCharacterIsRefused :
    good.registersInRange = true ∧ 'x' ≠ '0' ∧ 'x' ≠ '1' ∧ 'x' ∈ ({ good with opcode := ['x'] } : Operands).opcode ∧
      'x' ∈ ({ good with funct3 := ['0', 'x'] } : Operands).funct3 ∧ 'x' ∈ ({ good with funct7 := ['x'] } : Operands).funct7 := by
  decide
theorem witness_NonIntegerImmediateIsRefused :
    ({ good with immediate := .notInteger } : Operands).registersInRange = true ∧
      ({ good with immediate := .notInteger } : Operands).bitStringsBinary = true := by decide
/-- For every statement whose hypothesis is `a.wf` or `i.wf`: operands of each format, ragged ones and edges. -/
theorem witness_wf_operands : good.wf = true ∧ ragged.wf = true ∧ edge.wf = true ∧ edgeHigh.wf = true ∧
    opsH2.wf = true ∧ opsH3.wf = true ∧ opsH4.wf = true ∧ opsH5.wf = true ∧ opsH6.wf = true := by decide
theorem witness_ExecFrame : ∃ t, exec (.encodeR good) busy = .next t := ⟨_, rfl⟩
theorem witness_completes_encodeR : ∃ t, exec (.encodeR ragged) busy = .next t := ⟨_, rfl⟩
theorem witness_completes_encodeI : ∃ t, exec (.encodeI ragged) busy = .next t := ⟨_, rfl⟩
theorem witness_completes_encodeS : ∃ t, exec (.encodeS ragged) busy = .next t := ⟨_, rfl⟩
theorem witness_completes_encodeB : ∃ t, exec (.encodeB ragged) busy = .next t := ⟨_, rfl⟩
theorem witness_completes_encodeU : ∃ t, exec (.encodeU ragged) busy = .next t := ⟨_, rfl⟩
theorem witness_completes_encodeJ : ∃ t, exec (.encodeJ ragged) busy = .next t := ⟨_, rfl⟩
theorem witness_completes_decomposeR : ∃ t, exec (.decomposeR ragged) busy = .next t := ⟨_, rfl⟩
theorem witness_completes_decomposeI : ∃ t, exec (.decomposeI ragged) busy = .next t := ⟨_, rfl⟩
theorem witness_completes_decomposeS : ∃ t, exec (.decomposeS ragged) busy = .next t := ⟨_, rfl⟩
theorem witness_completes_decomposeB : ∃ t, exec (.decomposeB ragged) busy = .next t := ⟨_, rfl⟩
theorem witness_completes_decomposeU : ∃ t, exec (.decomposeU ragged) busy = .next t := ⟨_, rfl⟩
theorem witness_completes_decomposeJ : ∃ t, exec (.decomposeJ ragged) busy = .next t := ⟨_, rfl⟩
theorem witness_HexDigitRendersFourCharacters : 0 < 8 ∧ 7 < 8 := by decide
theorem witness_ZeroImmediateGivesZeroField :
    (spec0 .S).immediate = 0 ∧ (20, 5) ∈ immediateSlices (spec0 .S).format ∧ (0, 12) ∈ immediateSlices (spec0 .I).format ∧
      (0, 20) ∈ immediateSlices (spec0 .J).format := by decide
theorem witness_ImmediateIsTruncated :
    inSlices (immediateSlices .I) 12 = false ∧ inSlices (immediateSlices .B) 7 = false ∧
      inSlices (immediateSlices .B) 19 = false ∧ inSlices (immediateSlices .U) 20 = false ∧
      inSlices (immediateSlices .R) 0 = false := by decide
theorem witness_UnusedInputsAreInvisible :
    (∀ c ∈ fieldSources (spec0 .U).format, sameComponent (spec0 .U) { spec0 .U with rs1 := none, funct7 := [] } c) ∧
      spec0 .U ≠ { spec0 .U with rs1 := none, funct7 := [] } := by
  refine ⟨?_, by decide⟩
  simp [spec0, fieldSources, sameComponent]
theorem witness_FieldDependsOnItsComponentAlone :
    ((20, 5), Component.rd) ∈ (fieldSlices (spec0 .R).format).zip (fieldSources (spec0 .R).format) ∧
      sameComponent (spec0 .R) { spec0 .R with rs1 := none } .rd := ⟨by decide, rfl⟩
theorem witness_WordFixesTheRenderedInputs :
    (encodeSpec (spec0 .R)).hex = (encodeSpec { spec0 .R with opcode := [false, true] }).hex ∧
      spec0 .R ≠ { spec0 .R with opcode := [false, true] } ∧ Component.opcode ∈ fieldSources .R := by decide
theorem witness_ShortStringIsZeroPadded : ([] : BitString).length < 1 ∧ [true].length < 7 := by decide
theorem witness_LongStringKeepsItsRightmostCharacters : [false, true, false].length = 3 := by decide
theorem witness_ShapeDependsOnTheFormatAlone :
    (spec0 .I).format = ({ spec0 .I with rd := none } : InstructionSpec).format ∧
      spec0 .I ≠ { spec0 .I with rd := none } := by decide
theorem witness_OutputPortsAreTheBlockFunction :
    decodesTo (.ports .decompose portsH3) (.decomposeS opsH3) = true ∧
      decodeRefuses (.ports .decompose { portsH3 with fmt := 6 }) .badFormatTag = true := by decide

end Sys2Proof.Tests
end

section
/-! Proofs of the encoding family: how an immediate renders (R44) and how a short bit string is padded (R46). -/

namespace Sys2Proof.Proofs

open Sys2Proof.Machine Sys2Proof.Laws

/-- R44: the rendered immediate denotes the residue of its two's complement. -/
theorem val_immbits (f : InstructionFormat) (v : Int) :
    (val (immbits f v) : Int) = v % ((2 ^ immediateWidth f : Nat) : Int) :=
  val_low ..

/-- R44: the rendered immediate is its residue, written out in the format's immediate width. -/
theorem immbits_eq_bin (f : InstructionFormat) (v : Int) :
    immbits f v = bin (immediateWidth f) (v % ((2 ^ immediateWidth f : Nat) : Int)).toNat :=
  rfl

/-- Settles O44: length, value and string of the rendered immediate, each by its own lemma. -/
theorem immediateRendersItsResidue : Obligations.ImmediateRendersItsResidue :=
  fun f v => ⟨immbits_length f v, val_immbits f v, immbits_eq_bin f v⟩

/-- R46: the zero-padding branch of the normalisation. -/
theorem normalise_of_length_lt {w : Nat} {s : BitString} (h : s.length < w) :
    normalise w s = List.replicate (w - s.length) false ++ s :=
  if_pos h

/-- Zeros on the left leave the value of a bit string alone. -/
@[simp] theorem val_replicate_false_append (n : Nat) (s : BitString) :
    val (List.replicate n false ++ s) = val s := by
  rw [val_append, val_replicate_false, Nat.zero_mul, Nat.zero_add]

/-- Settles O45: a short string takes the padding branch, and leading zeros add nothing to the value. -/
theorem shortStringIsZeroPadded : Obligations.ShortStringIsZeroPadded := by
  intro w s h
  have hpad := normalise_of_length_lt h
  exact ⟨hpad, by rw [hpad, val_replicate_false_append]⟩

end Sys2Proof.Proofs
end

section
/-! Proof of the width policy family: the table of immediate widths (R63). -/

namespace Sys2Proof.Proofs

open Sys2Proof.Machine

/-- Settles O43: each row of the model's table is the row of R63, so every conjunct holds by computation. -/
theorem immediateWidths : Obligations.ImmediateWidths :=
  ⟨rfl, rfl, rfl, rfl, rfl, rfl⟩

end Sys2Proof.Proofs
end

section
/-! Proofs of the encoder family: the rows of the concatenation (R70 to R74), the length of the word (R80), the shape and
the value of its hexadecimal rendering (R81, R82), and the immediate 0 (R83). -/

namespace Sys2Proof.Proofs

open Sys2Proof.Machine Sys2Proof.Laws

/-! The rows. -/

/-- R77, R78: the hexadecimal string of every result renders its binary string. -/
theorem encodeSpec_hex (sp : InstructionSpec) : (encodeSpec sp).hex = hexOf (encodeSpec sp).binary := by
  obtain ⟨raw, hraw⟩ := encodeSpec_eq_finish sp
  rw [hraw, finish_hex]

/-- Inside the contract, the ENCODE row of every format completes, and its one new outcome is the encoding of the request
the operands make. -/
theorem exec_encode_answers (f : InstructionFormat) {a : Operands} (s : State) (h : a.wf = true) :
    ∃ (sp : InstructionSpec) (t : State), sp.format = f ∧ contract f a = .ok sp ∧
      exec (instrOf .encode f a) s = .next t ∧ s.Answered t (.encoded (encodeSpec sp)) := by
  obtain ⟨sp, hc⟩ := contract_of_wf f h
  have hx := exec_of_ok (i := instrOf .encode f a) s (by simpa using hc)
  rw [instrOf_operation] at hx
  exact ⟨sp, _, (contract_ok hc).1, hc, hx, rfl, rfl, rfl⟩

/-- The rendered immediate of a format of known width (R44). -/
theorem render_im_eq_low {sp : InstructionSpec} {f : InstructionFormat} (h : sp.format = f) :
    (render sp).im = low (immediateWidth f) sp.immediate := by
  subst h; rfl

/-- Settles O25: the outcome is the encoding of the request, and format R's binary string is its row. -/
theorem encodeRConcatenatesItsRow : Obligations.EncodeRConcatenatesItsRow := by
  intro a s h
  obtain ⟨sp, t, hf, hc, hx, hans⟩ := exec_encode_answers .R s h
  refine ⟨sp, t, encodeSpec sp, hc, hx, hans, ?_, encodeSpec_hex sp⟩
  simp only [encodeSpec_binary, hf, rawR, render]

/-- Settles O26: the outcome is the encoding of the request, and format I's row begins with the low 12 bits of the immediate. -/
theorem encodeIConcatenatesItsRow : Obligations.EncodeIConcatenatesItsRow := by
  intro a s h
  obtain ⟨sp, t, hf, hc, hx, hans⟩ := exec_encode_answers .I s h
  refine ⟨sp, t, encodeSpec sp, hc, hx, hans, ?_, encodeSpec_hex sp⟩
  simp only [encodeSpec_binary, hf, rawI, render_im_eq_low hf]
  rfl

/-- Settles O27: the outcome is the encoding of the request, and format S's row splits the low 12 bits of the immediate
7 and 5. -/
theorem encodeSConcatenatesItsRow : Obligations.EncodeSConcatenatesItsRow := by
  intro a s h
  obtain ⟨sp, t, hf, hc, hx, hans⟩ := exec_encode_answers .S s h
  refine ⟨sp, t, encodeSpec sp, hc, hx, hans, ?_, encodeSpec_hex sp⟩
  simp only [encodeSpec_binary, hf, rawS, immHi, immLo, render_im_eq_low hf]
  rfl

/-- Settles O29: the outcome is the encoding of the request, and format U's row begins with the low 20 bits of the immediate. -/
theorem encodeUConcatenatesItsRow : Obligations.EncodeUConcatenatesItsRow := by
  intro a s h
  obtain ⟨sp, t, hf, hc, hx, hans⟩ := exec_encode_answers .U s h
  refine ⟨sp, t, encodeSpec sp, hc, hx, hans, ?_, encodeSpec_hex sp⟩
  simp only [encodeSpec_binary, hf, rawU, render_im_eq_low hf]
  rfl

/-- Settles O32: every result is made by the fit to 32 characters (R76). -/
theorem binaryHas32Characters : Obligations.BinaryHas32Characters := by
  intro sp
  obtain ⟨raw, hraw⟩ := encodeSpec_eq_finish sp
  rw [hraw, finish_binary_length]

/-! The hexadecimal rendering (R77). -/

/-- Reading a rendered digit gives its value back. -/
theorem parseHexDigit_hexDigit {n : Nat} (h : n < 16) : parseHexDigit (hexDigit n) = some n := by
  revert n; decide

theorem hexNibble_lt (word j : Nat) : hexNibble word j < 16 := Nat.mod_lt _ (by decide)

/-- Reading rendered digits evaluates them in base 16, most significant first. -/
theorem parseHexDigits_map_hexDigit {ns : List Nat} (h : ∀ n ∈ ns, n < 16) (acc : Nat) :
    parseHexDigits acc (ns.map hexDigit) = some (ns.foldl (fun v n => 16 * v + n) acc) := by
  induction ns generalizing acc with
  | nil => rfl
  | cons n ns ih =>
    obtain ⟨hn, hns⟩ := List.forall_mem_cons.mp h
    simp only [List.map_cons, List.foldl_cons, parseHexDigits, parseHexDigit_hexDigit hn, ih hns]

/-- The first `k` nibbles of a 32-bit word, evaluated in base 16, are its high `4k` bits. -/
theorem foldl_hexNibble {word : Nat} (hw : word < 2 ^ 32) {k : Nat} (hk : k ≤ 8) :
    ((List.range k).map (hexNibble word)).foldl (fun v n => 16 * v + n) 0 = word / 2 ^ (32 - 4 * k) := by
  induction k with
  | zero => exact (Nat.div_eq_of_lt hw).symm
  | succ k ih =>
    have hpow : 2 ^ (32 - 4 * k) = 2 ^ (28 - 4 * k) * 16 := by
      rw [show 32 - 4 * k = 28 - 4 * k + 4 by omega, Nat.pow_add]
    rw [List.range_succ, List.map_append, List.foldl_append, ih (by omega), hpow, ← Nat.div_div_eq_div_mul,
      show 32 - 4 * (k + 1) = 28 - 4 * k by omega]
    exact Nat.div_add_mod _ 16

/-- R81 of the rendering: `0x` and eight digits. -/
theorem hexShaped_hexOf (b : BitString) : hexShaped (hexOf b) = true := by
  have hdigit (j : Nat) := parseHexDigit_hexDigit (hexNibble_lt (val b) j)
  simp [hexShaped, hexOf, hdigit]

/-- R82 of the rendering: a hexadecimal string denotes the 32-character word it renders. -/
theorem parseHex_hexOf {b : BitString} (h : b.length = 32) : parseHex (hexOf b) = some (val b) := by
  have hb : val b < 2 ^ 32 := h ▸ val_lt b
  have hdigits : ∀ n ∈ (List.range 8).map (hexNibble (val b)), n < 16 := by
    simp [hexNibble_lt]
  calc parseHex (hexOf b)
      = parseHexDigits 0 (((List.range 8).map (hexNibble (val b))).map hexDigit) := by
        rw [List.map_map]; rfl
    _ = some (val b / 2 ^ (32 - 4 * 8)) := by
        rw [parseHexDigits_map_hexDigit hdigits, foldl_hexNibble hb (Nat.le_refl 8)]
    _ = some (val b) := by rw [Nat.sub_self, Nat.pow_zero, Nat.div_one]

/-- Settles O33: the hexadecimal string is a rendering, and every rendering is shaped. -/
theorem hexIsShaped : Obligations.HexIsShaped := by
  intro sp
  rw [encodeSpec_hex]
  exact hexShaped_hexOf _

/-- Settles O34: the binary string has 32 characters, so reading its rendering back gives its value. -/
theorem hexAndBinaryDenoteOneWord : Obligations.HexAndBinaryDenoteOneWord := by
  intro sp
  rw [encodeSpec_hex]
  exact parseHex_hexOf (binaryHas32Characters sp)

/-! The immediate slices of the rows (R83). -/

theorem slice_rawI_im {x : Rendered} (h : x.im.length = 12) : slice (rawI x) 0 12 = x.im := by
  simp only [rawI, List.append_assoc]
  exact slice_append_self _ h

theorem slice_rawU_im {x : Rendered} (h : x.im.length = 20) : slice (rawU x) 0 20 = x.im := by
  simp only [rawU, List.append_assoc]
  exact slice_append_self _ h

theorem slice_rawS_immHi {x : Rendered} (h : x.im.length = 12) : slice (rawS x) 0 7 = immHi x.im := by
  simp only [rawS, List.append_assoc]
  exact slice_append_self _ (immHi_length h)

theorem slice_rawS_immLo {sp : InstructionSpec} (h : (render sp).im.length = 12) :
    slice (rawS (render sp)) 20 5 = immLo (render sp).im := by
  have hpre : (immHi (render sp).im ++ (render sp).r2 ++ (render sp).r1 ++ (render sp).f3).length = 20 := by
    simp [immHi_length h]
  rw [rawS, List.append_assoc, slice_append_of_le _ _ hpre.le, hpre]
  exact slice_append_self _ (immLo_length h)

/-- Formats S and B lay one row (R73). -/
theorem rawB_eq_rawS (x : Rendered) : rawB x = rawS x := rfl

/-- Formats U and J lay one row (R75). -/
theorem rawJ_eq_rawU (x : Rendered) : rawJ x = rawU x := rfl

theorem low_zero (w : Nat) : low w 0 = List.replicate w false :=
  eq_of_val_eq (by simp) (by simp [val_low_toNat])

theorem immHi_replicate_false : immHi (List.replicate 12 false) = List.replicate 7 false := rfl

theorem immLo_replicate_false : immLo (List.replicate 12 false) = List.replicate 5 false := rfl

/-- The rendered immediate 0 is zeros. -/
theorem render_im_of_immediate_zero {sp : InstructionSpec} (h : sp.immediate = 0) :
    (render sp).im = List.replicate (immediateWidth sp.format) false := by
  rw [render_im_eq_low rfl, h, low_zero]

/-- The immediate slice of the row of format I is zeros when the rendered immediate is. -/
theorem slice_rawI_of_im_zero {x : Rendered} (him : x.im = List.replicate 12 false) :
    slice (rawI x) 0 12 = List.replicate 12 false := by
  rw [slice_rawI_im (by rw [him, List.length_replicate]), him]

/-- Both immediate slices of the row of formats S and B are zeros when the rendered immediate is. -/
theorem slice_rawS_of_im_zero {sp : InstructionSpec} (him : (render sp).im = List.replicate 12 false)
    {g : Nat × Nat} (hg : g = (0, 7) ∨ g = (20, 5)) :
    slice (rawS (render sp)) g.1 g.2 = List.replicate g.2 false := by
  have hl : (render sp).im.length = 12 := by rw [him, List.length_replicate]
  obtain rfl | rfl := hg
  · rw [slice_rawS_immHi hl, him, immHi_replicate_false]
  · rw [slice_rawS_immLo hl, him, immLo_replicate_false]

/-- The immediate slice of the row of formats U and J is zeros when the rendered immediate is. -/
theorem slice_rawU_of_im_zero {x : Rendered} (him : x.im = List.replicate 20 false) :
    slice (rawU x) 0 20 = List.replicate 20 false := by
  rw [slice_rawU_im (by rw [him, List.length_replicate]), him]

/-- Settles O36: each immediate slice is a piece of the rendered immediate, which is zeros. -/
theorem zeroImmediateGivesZeroField : Obligations.ZeroImmediateGivesZeroField := by
  intro sp h0 g hg
  have him := render_im_of_immediate_zero h0
  rw [encodeSpec_binary]
  cases hf : sp.format <;>
    simp only [hf, immediateSlices, immediateWidth, List.mem_cons, List.not_mem_nil, or_false] at him hg ⊢
  case I => subst hg; exact slice_rawI_of_im_zero him
  case S => exact slice_rawS_of_im_zero him hg
  case B => rw [rawB_eq_rawS]; exact slice_rawS_of_im_zero him hg
  case U => subst hg; exact slice_rawU_of_im_zero him
  case J => subst hg; rw [rawJ_eq_rawU]; exact slice_rawU_of_im_zero him

end Sys2Proof.Proofs
end

section
/-! Proof of the decomposer family: the widths of the records are those of the format's row, and every value has the width
its record states (R101). -/

namespace Sys2Proof.Proofs

open Sys2Proof.Machine Sys2Proof.Laws

/-- The widths of the records are those of the slices of the format's row (R62). -/
theorem map_width_decomposeSpec (sp : InstructionSpec) :
    (decomposeSpec sp).map BitField.width = (fieldSlices sp.format).map Prod.snd := by
  cases hf : sp.format <;> simp only [decomposeSpec, hf] <;> rfl

/-- The slices of every row cover the word. -/
theorem sum_widths_fieldSlices (f : InstructionFormat) : ((fieldSlices f).map Prod.snd).sum = 32 := by
  cases f <;> rfl

theorem zero_notMem_widths_fieldSlices (f : InstructionFormat) : 0 ∉ (fieldSlices f).map Prod.snd := by
  cases f <;> decide

theorem width_ne_zero_of_mem_decomposeSpec {sp : InstructionSpec} {fd : BitField} (h : fd ∈ decomposeSpec sp) :
    fd.width ≠ 0 := by
  have hmem : fd.width ∈ (fieldSlices sp.format).map Prod.snd :=
    map_width_decomposeSpec sp ▸ List.mem_map_of_mem h
  exact fun h0 => zero_notMem_widths_fieldSlices sp.format (h0 ▸ hmem)

@[simp] theorem record_shaped (n : FieldName) (w : Nat) (b : BitString) :
    (record n w b).shaped = (b.length == w) := rfl

/-- Formats S and B have one row of records (R97). -/
theorem recordsB_eq_recordsS (x : Rendered) : recordsB x = recordsS x := rfl

/-- Formats U and J have one row of records (R99). -/
theorem recordsJ_eq_recordsU (x : Rendered) : recordsJ x = recordsU x := rfl

theorem recordsR_shaped (sp : InstructionSpec) : (recordsR (render sp)).all BitField.shaped = true := by
  simp [recordsR]

theorem recordsI_shaped {sp : InstructionSpec} (h : (render sp).im.length = 12) :
    (recordsI (render sp)).all BitField.shaped = true := by
  simp [recordsI, h, -render_im_length]

theorem recordsS_shaped {sp : InstructionSpec} (h : (render sp).im.length = 12) :
    (recordsS (render sp)).all BitField.shaped = true := by
  simp [recordsS, immHi_length h, immLo_length h]

theorem recordsU_shaped {sp : InstructionSpec} (h : (render sp).im.length = 20) :
    (recordsU (render sp)).all BitField.shaped = true := by
  simp [recordsU, h, -render_im_length]

/-- Every record's value has the width the record states: each row's groups are renderings of fixed length, and the
immediate has the width of the format. -/
theorem decomposeSpec_shaped (sp : InstructionSpec) : (decomposeSpec sp).all BitField.shaped = true := by
  have him := render_im_length sp
  cases hf : sp.format <;> simp only [decomposeSpec, hf, immediateWidth] at him ⊢
  case R => exact recordsR_shaped sp
  case I => exact recordsI_shaped him
  case S => exact recordsS_shaped him
  case B => rw [decomposedB, recordsB_eq_recordsS]; exact recordsS_shaped him
  case U => exact recordsU_shaped him
  case J => rw [decomposedJ, recordsJ_eq_recordsU]; exact recordsU_shaped him

theorem value_length_of_mem_decomposeSpec {sp : InstructionSpec} {fd : BitField} (h : fd ∈ decomposeSpec sp) :
    fd.value.length = fd.width :=
  beq_iff_eq.mp (List.all_eq_true.mp (decomposeSpec_shaped sp) fd h)

/-- Settles O56: values have their record's width by the lengths of the renderings; the widths are those of the row's
slices, none of them 0 and 32 in sum. -/
theorem recordWidthsSumTo32 : Obligations.RecordWidthsSumTo32 := by
  intro sp
  refine ⟨fun fd h => ⟨value_length_of_mem_decomposeSpec h, width_ne_zero_of_mem_decomposeSpec h⟩, ?_, ?_⟩
  · rw [map_width_decomposeSpec, sum_widths_fieldSlices]
  · rw [map_width_decomposeSpec]
    cases sp.format <;> rfl

end Sys2Proof.Proofs
end

section
/-! Proofs of the machine around the block: what becomes of the oldest request, from any state and in any sequence
(R12, R33, R39, R85, R114), and when the contract refuses (R109 to R111). -/

namespace Sys2Proof.Proofs

open Sys2Proof.Machine Sys2Proof.Laws

/-! What becomes of one request. -/

theorem outcomeOf_of_decode_error {r : Request} {e : RefuseReason} (h : decode r = .error e) :
    outcomeOf r = (.refused e, none) := by
  simp only [outcomeOf, h]

theorem outcomeOf_of_contract_error {r : Request} {i : Instr} {e : RefuseReason} (hd : decode r = .ok i)
    (hc : contract i.format i.operands = .error e) : outcomeOf r = (.refused e, none) := by
  simp only [outcomeOf, hd, hc]

theorem outcomeOf_of_contract_ok {r : Request} {i : Instr} {sp : InstructionSpec} (hd : decode r = .ok i)
    (hc : contract i.format i.operands = .ok sp) :
    outcomeOf r = (answerFor i.operation sp, some (outputImage (encodeSpec sp) (decomposeSpec sp))) := by
  simp only [outcomeOf, hd, hc]

theorem deliver_answered (sp : InstructionSpec) (x : Answer) (s : State) : s.Answered (s.deliver sp x) x :=
  ⟨rfl, rfl, rfl⟩

/-! One step. -/

/-- A step takes the oldest request off the queue and adds its outcome. -/
theorem step_takes_oldest {s : State} {r : Request} {rest : List Request} (h : s.pending = r :: rest) :
    ∃ t : State, step s = .next t ∧ t.pending = rest ∧ t.outcomes = s.outcomes ++ [(outcomeOf r).1] :=
  ⟨_, step_of_pending h, rfl, rfl⟩

/-- Settles O1: the reset state holds nothing, field by field. -/
theorem resetHasNothingPresented : Obligations.ResetHasNothingPresented :=
  ⟨State.reset_pending, State.reset_inputs, State.reset_outputs, State.reset_outcomes⟩

/-- Settles O2: inside the contract both the step and `exec` deliver the answer of the instruction's operation. -/
theorem stepRunsTheDecodedInstruction : Obligations.StepRunsTheDecodedInstruction := by
  intro s r rest i hp hd hwf
  obtain ⟨sp, hc⟩ := contract_of_wf i.format hwf
  rw [step_of_pending hp, exec_of_ok _ hc, outcomeOf_of_contract_ok hd hc]
  rfl

/-- Settles O3: a refused request, by the decoder or by the contract, has the refusal as its outcome and no outputs. -/
theorem refusedRequestIsRecorded : Obligations.RefusedRequestIsRecorded := by
  intro s r rest e hp hrefused
  have hout : outcomeOf r = (.refused e, none) := by
    obtain hd | ⟨i, hd, hc⟩ := hrefused
    · exact outcomeOf_of_decode_error hd
    · exact outcomeOf_of_contract_error hd hc
  rw [step_of_pending hp, hout]

/-- Settles O4: the step with nothing pending answers the state it started from. -/
theorem idleStepChangesNothing : Obligations.IdleStepChangesNothing :=
  fun _ h => step_of_idle h

/-- Settles O5: an idle step adds nothing, a step with a request pending adds the outcome of that request. -/
theorem everyStepAnswersOneRequest : Obligations.EveryStepAnswersOneRequest := by
  intro s
  cases hp : s.pending with
  | nil => exact ⟨s, step_of_idle hp, hp, [], by simp, rfl⟩
  | cons r rest =>
    obtain ⟨t, hstep, hpend, hout⟩ := step_takes_oldest hp
    exact ⟨t, hstep, hpend, [(outcomeOf r).1], hout, by simp⟩

/-- Settles O6: outcome, output levels and input levels are those of the request, which the state does not enter. -/
theorem answerDependsOnTheRequestAlone : Obligations.AnswerDependsOnTheRequestAlone :=
  fun _ _ r _ _ h h' =>
    ⟨_, _, (outcomeOf r).1, step_of_pending h, step_of_pending h', rfl, rfl, rfl, rfl⟩

/-! A run. -/

theorem run_succ {s t : State} (n : Nat) (h : step s = .next t) : core.run (n + 1) s = core.run n t := by
  simp only [Host.Core.run, Host.Check.core_step, h]

/-- The run over the requests at the head of the queue takes them off and adds the outcome of each, in order. -/
theorem run_of_pending_append {s : State} {rs rest : List Request} (h : s.pending = rs ++ rest) :
    ∃ t : State, core.run rs.length s = .next t ∧ t.pending = rest ∧
      t.outcomes = s.outcomes ++ rs.map fun r => (outcomeOf r).1 := by
  induction rs generalizing s with
  | nil => exact ⟨s, rfl, h, by simp⟩
  | cons r rs ih =>
    obtain ⟨t₁, hstep, hpend₁, hout₁⟩ := step_takes_oldest (rest := rs ++ rest) h
    obtain ⟨t, hrun, hpend, hout⟩ := ih hpend₁
    exact ⟨t, (run_succ _ hstep).trans hrun, hpend, by simp [hout, hout₁]⟩

/-- A request presented alone at reset leaves its outcome and no other. -/
theorem step_alone (r : Request) : ∃ u : State, step (State.alone r) = .next u ∧ u.outcomes = [(outcomeOf r).1] :=
  ⟨_, step_of_pending (s := State.alone r) rfl, rfl⟩

/-- Settles O7: the run over the request twice adds its outcome twice. -/
theorem repeatedRequestRepeatsItsOutcome : Obligations.RepeatedRequestRepeatsItsOutcome := by
  intro s r rest h
  obtain ⟨t, hrun, hpend, hout⟩ := run_of_pending_append (rs := [r, r]) h
  exact ⟨t, (outcomeOf r).1, hrun, hpend, hout⟩

/-- Settles O8: the run adds `outcomeOf` of each request, which is the outcome the request has alone. -/
theorem requestsAreIndependent : Obligations.RequestsAreIndependent := by
  intro s rs rest h
  obtain ⟨t, hrun, hpend, hout⟩ := run_of_pending_append h
  refine ⟨t, _, hrun, hpend, hout, List.length_map .., fun k r hk => ?_⟩
  have hget : (rs.map fun r => (outcomeOf r).1).getD k (.refused .badFormatTag) = (outcomeOf r).1 := by
    simp [List.getD_eq_getElem?_getD, hk]
  rw [hget]
  exact step_alone r

/-- Settles O9: nothing stands on the ports at reset, and there is no outcome to have a shape. -/
theorem invariantHoldsAtReset : Obligations.InvariantHoldsAtReset :=
  ⟨rfl, fun _ hx => nomatch hx⟩

/-! The contract. -/

/-- Operands outside the contract are refused. -/
theorem contract_of_not_wf (f : InstructionFormat) {a : Operands} (h : a.wf = false) :
    ∃ e, contract f a = .error e := by
  cases hc : contract f a with
  | error e => exact ⟨e, rfl⟩
  | ok sp => simp [wf_of_contract hc] at h

/-- Registers are checked first (R111). -/
theorem contract_of_registers_out (f : InstructionFormat) {a : Operands} (h : a.registersInRange = false) :
    contract f a = .error .registerOutOfRange := by
  obtain ⟨e, he⟩ := contract_of_not_wf f (a := a) (by simp [Operands.wf, h])
  obtain ⟨-, rfl⟩ | ⟨hr, -⟩ | ⟨hr, -⟩ := contract_error he
  · exact he
  · simp [h] at hr
  · simp [h] at hr

/-- Characters are checked after the registers (R111). -/
theorem contract_of_bitStrings_bad (f : InstructionFormat) {a : Operands} (hr : a.registersInRange = true)
    (h : a.bitStringsBinary = false) : contract f a = .error .badBitStringChar := by
  obtain ⟨e, he⟩ := contract_of_not_wf f (a := a) (by simp [Operands.wf, h])
  obtain ⟨hr', -⟩ | ⟨-, -, rfl⟩ | ⟨-, hb, -⟩ := contract_error he
  · simp [hr] at hr'
  · exact he
  · simp [h] at hb

/-- The immediate is checked last (R111). -/
theorem contract_of_notInteger (f : InstructionFormat) {a : Operands} (hr : a.registersInRange = true)
    (hb : a.bitStringsBinary = true) (h : a.immediate = .notInteger) :
    contract f a = .error .nonIntegerImmediate := by
  obtain ⟨e, he⟩ := contract_of_not_wf f (a := a) (by simp [Operands.wf, h, Immediate.isInteger])
  obtain ⟨hr', -⟩ | ⟨-, hb', -⟩ | ⟨-, -, -, rfl⟩ := contract_error he
  · simp [hr] at hr'
  · simp [hb] at hb'
  · exact he

theorem registerInRange_of_out {n : Int} (h : n < 0 ∨ 31 < n) : registerInRange (some n) = false := by
  simp [registerInRange]; omega

theorem bitCharsOnly_of_mem {cs : List Char} {c : Char} (h0 : c ≠ '0') (h1 : c ≠ '1') (h : c ∈ cs) :
    bitCharsOnly cs = false := by
  simp only [bitCharsOnly, List.all_eq_false]
  exact ⟨c, h, by simp [h0, h1]⟩

/-- Settles O18: inside the contract `exec` delivers, outside it refuses for the contract's reason. -/
theorem resultExactlyInsideTheContract : Obligations.ResultExactlyInsideTheContract := by
  intro i s
  refine ⟨fun h => ?_, fun h => ?_⟩
  · obtain ⟨sp, hc⟩ := contract_of_wf i.format h
    exact ⟨_, exec_of_ok s hc⟩
  · obtain ⟨e, hc⟩ := contract_of_not_wf i.format h
    exact ⟨e, exec_of_error s hc⟩

/-- Settles O19: one slot out of range puts the registers out of range, and registers are checked first. -/
theorem outOfRangeRegisterIsRefused : Obligations.OutOfRangeRegisterIsRefused := by
  intro i s n hn hslot
  have hout : i.operands.registersInRange = false := by
    obtain h | h | h := hslot <;> simp [Operands.registersInRange, h, registerInRange_of_out hn]
  exact exec_of_error s (contract_of_registers_out i.format hout)

/-- Settles O20: one bad character spoils the bit strings, and characters are checked after the registers. -/
theorem badCharacterIsRefused : Obligations.BadCharacterIsRefused := by
  intro i s c hr h0 h1 hmem
  have hbad : i.operands.bitStringsBinary = false := by
    obtain h | h | h := hmem <;> simp [Operands.bitStringsBinary, bitCharsOnly_of_mem h0 h1 h]
  exact exec_of_error s (contract_of_bitStrings_bad i.format hr hbad)

/-- Settles O21: with registers and characters in order, the immediate is the reason. -/
theorem nonIntegerImmediateIsRefused : Obligations.NonIntegerImmediateIsRefused :=
  fun i s hr hb hi => exec_of_error s (contract_of_notInteger i.format hr hb hi)

/-- Settles O22: every component of the accepted request is read back from its check. -/
theorem contractKeepsTheComponents : Obligations.ContractKeepsTheComponents := by
  intro f a h
  obtain ⟨sp, hc⟩ := contract_of_wf f h
  obtain ⟨hf, h1, h2, hd, hop, h3, h7, hi⟩ := contract_ok hc
  exact ⟨sp, hc, hf, registerReference_map h1, registerReference_map h2, registerReference_map hd, hi.symm,
    map_charOfBit_of_bitsOfChars hop, map_charOfBit_of_bitsOfChars h3, map_charOfBit_of_bitsOfChars h7⟩

/-! The instructions. -/

/-- The row of an operation and a format delivers the answer of the operation. -/
theorem exec_instrOf_of_ok (op : Operation) {f : InstructionFormat} {a : Operands} {sp : InstructionSpec} (s : State)
    (hc : contract f a = .ok sp) : exec (instrOf op f a) s = .next (s.deliver sp (answerFor op sp)) := by
  have hx := exec_of_ok (i := instrOf op f a) s (by simpa using hc)
  rwa [instrOf_operation] at hx

/-- Settles O23: inside the contract an instruction delivers the answer of its operation, and both results. -/
theorem execDeliversBothResults : Obligations.ExecDeliversBothResults := by
  intro i s h
  obtain ⟨sp, hc⟩ := contract_of_wf i.format h
  exact ⟨sp, _, hc, exec_of_ok s hc, deliver_answered .., rfl⟩

/-- Settles O24: an instruction that answers a next state delivered, and a delivery adds one outcome. -/
theorem execFrame : Obligations.ExecFrame := by
  intro i s t h
  obtain ⟨sp, -, rfl⟩ := exec_next h
  exact ⟨_, deliver_answered ..⟩

end Sys2Proof.Proofs
end

section
/-! Proofs of the renderings and of the layout: normalisation (R47, R48), unset registers (R49), and the one table that
says which rendering stands in which slice of the word, from which the laws of the Encoder (R54, R56, R77, R84 to R88) and
of the Decomposer (R94 to R103) follow. -/

namespace Sys2Proof.Proofs

open Sys2Proof.Machine Sys2Proof.Laws

/-! Renderings. -/

/-- Settles O46: of a string too long, what stands in front is a multiple of `2^w`. -/
theorem longStringKeepsItsRightmostCharacters : Obligations.LongStringKeepsItsRightmostCharacters := by
  intro w s t h
  have hs : val s < 2 ^ w := h ▸ val_lt s
  refine ⟨eq_of_val_eq (by rw [normalise_length, h]) ?_, val_normalise ..⟩
  rw [val_normalise, val_append, h, Nat.mul_add_mod_self_right, Nat.mod_eq_of_lt hs]

/-- Settles O47: both sides have `w` characters and the residue as value. -/
theorem normWritesTheResidue : Obligations.NormWritesTheResidue :=
  fun w s => ⟨eq_of_val_eq (by simp) (by simp), normalise_of_length_eq (normalise_length w s)⟩

theorem reg5_none : reg5 none = reg5 (some 0) := rfl

/-- Settles O48: unset and index 0 render the same, and both outputs are functions of the rendered inputs. -/
theorem unsetRegisterIsIndexZero : Obligations.UnsetRegisterIsIndexZero := by
  refine ⟨fun n => ⟨rfl, val_reg5 (some n)⟩, rfl, fun sp => ⟨?_, ?_, ?_⟩⟩
  all_goals exact results_of_render_eq rfl (by simp only [render, reg5_none])

/-! The layout. -/

/-- The field groups of a format: where each stands in the word (R62), and the component that supplies it (R42). -/
def layout (f : InstructionFormat) : List ((Nat × Nat) × Component) := (fieldSlices f).zip (fieldSources f)

/-- The string of a field group: its component's rendering, of the immediate in formats S and B the half that has the
group's width (R50). -/
def groupString (x : Rendered) (g : (Nat × Nat) × Component) : BitString :=
  match g with
  | ((_, 7), .immediate) => immHi x.im
  | ((_, 5), .immediate) => immLo x.im
  | (_, c) => renderedComponent x c

/-- The label of a field group (R92). -/
def groupName : (Nat × Nat) × Component → FieldName
  | (_, .funct7) => .funct7
  | (_, .rs2) => .rs2
  | (_, .rs1) => .rs1
  | (_, .funct3) => .funct3
  | (_, .rd) => .rd
  | (_, .opcode) => .opcode
  | ((_, 7), .immediate) => .immHigh
  | ((_, 5), .immediate) => .immLow
  | ((_, 12), .immediate) => .immWhole12
  | (_, .immediate) => .immWhole20

/-- The record of a field group (R91). -/
def groupRecord (x : Rendered) (g : (Nat × Nat) × Component) : BitField := record (groupName g) g.1.2 (groupString x g)

/-- The records are those of the layout's groups, in order. -/
theorem decomposeSpec_eq_map_layout (sp : InstructionSpec) :
    decomposeSpec sp = (layout sp.format).map (groupRecord (render sp)) := by
  cases hf : sp.format <;> simp only [decomposeSpec, hf] <;> rfl

/-- The binary string is the strings of the layout's groups, in order. -/
theorem encodeSpec_binary_eq_flatten (sp : InstructionSpec) :
    (encodeSpec sp).binary = ((layout sp.format).map (groupString (render sp))).flatten := by
  rw [encodeSpec_binary]
  cases sp.format <;>
    simp [rawR, rawI, rawS, rawB, rawU, rawJ, layout, fieldSlices, fieldSources, groupString, renderedComponent]

theorem map_fst_layout (f : InstructionFormat) : (layout f).map Prod.fst = fieldSlices f := by
  cases f <;> rfl

theorem map_value_decomposeSpec (sp : InstructionSpec) :
    (decomposeSpec sp).map BitField.value = (layout sp.format).map (groupString (render sp)) := by
  rw [decomposeSpec_eq_map_layout, List.map_map]
  rfl

/-- Slices of the given lengths, each where the one before it ends. -/
def slicesFrom : Nat → List Nat → List (Nat × Nat)
  | _, [] => []
  | start, n :: ns => (start, n) :: slicesFrom (start + n) ns

/-- The slices of every row stand one after the other (R62). -/
theorem fieldSlices_eq_slicesFrom (f : InstructionFormat) :
    fieldSlices f = slicesFrom 0 ((fieldSlices f).map Prod.snd) := by
  cases f <;> rfl

/-- Cutting a concatenation at the lengths of its parts gives the parts. -/
theorem map_slice_slicesFrom (front : BitString) (parts : List BitString) :
    (slicesFrom front.length (parts.map List.length)).map (fun g => slice (front ++ parts.flatten) g.1 g.2) = parts := by
  induction parts generalizing front with
  | nil => rfl
  | cons p ps ih =>
    have hrest := ih (front ++ p)
    rw [List.length_append, List.append_assoc] at hrest
    simp only [List.map_cons, slicesFrom, List.flatten_cons, hrest]
    rw [slice_append_of_le _ _ (Nat.le_refl _), Nat.sub_self, slice_append_self _ rfl]

/-- Settles O57: the word is the concatenation of the records' values, and the slices of the format's row cut it at their
lengths. -/
theorem recordsAreSlicesOfTheWord : Obligations.RecordsAreSlicesOfTheWord := by
  intro sp
  have hlen : ((decomposeSpec sp).map BitField.value).map List.length = (fieldSlices sp.format).map Prod.snd := by
    rw [← map_width_decomposeSpec, List.map_map]
    exact List.map_congr_left fun fd h => value_length_of_mem_decomposeSpec h
  have hcut := map_slice_slicesFrom [] ((decomposeSpec sp).map BitField.value)
  rw [hlen, List.length_nil, ← fieldSlices_eq_slicesFrom, map_value_decomposeSpec, List.nil_append,
    ← encodeSpec_binary_eq_flatten] at hcut
  rw [map_value_decomposeSpec, hcut]

/-- What stands in the slice of a field group is the group's string. -/
theorem slice_eq_groupString {sp : InstructionSpec} {g : (Nat × Nat) × Component} (h : g ∈ layout sp.format) :
    slice (encodeSpec sp).binary g.1.1 g.1.2 = groupString (render sp) g := by
  have hall := recordsAreSlicesOfTheWord sp
  rw [map_value_decomposeSpec, ← map_fst_layout, List.map_map] at hall
  exact (List.map_inj_left.mp hall g h).symm

/-! What the outputs depend on (R86, R88). -/

/-- The rendering of a component depends on that component and the format alone. -/
theorem renderedComponent_congr {sp sp' : InstructionSpec} {c : Component} (hf : sp.format = sp'.format)
    (h : sameComponent sp sp' c) : renderedComponent (render sp) c = renderedComponent (render sp') c := by
  cases c <;> simp_all [sameComponent, renderedComponent, render]

/-- A group's string depends on the rendering of its component alone. -/
theorem groupString_congr {x x' : Rendered} {g : (Nat × Nat) × Component}
    (h : renderedComponent x g.2 = renderedComponent x' g.2) : groupString x g = groupString x' g := by
  unfold groupString
  split
  · exact congrArg immHi h
  · exact congrArg immLo h
  · exact h

/-- Settles O40: the slice holds the group's string, which the one component supplies. -/
theorem fieldDependsOnItsComponentAlone : Obligations.FieldDependsOnItsComponentAlone := by
  intro sp sp' hf g hg hsame
  rw [slice_eq_groupString hg, slice_eq_groupString (hf ▸ hg)]
  exact groupString_congr (renderedComponent_congr hf hsame)

/-- An encoded instruction is its binary string and the rendering of it (R78). -/
theorem encodeSpec_eq (sp : InstructionSpec) : encodeSpec sp = ⟨(encodeSpec sp).binary, hexOf (encodeSpec sp).binary⟩ := by
  rw [← encodeSpec_hex]

/-- Requests whose groups have the same strings have the same outputs. -/
theorem results_of_groupString_eq {sp sp' : InstructionSpec} (hf : sp.format = sp'.format)
    (h : ∀ g ∈ layout sp.format, groupString (render sp) g = groupString (render sp') g) :
    encodeSpec sp = encodeSpec sp' ∧ decomposeSpec sp = decomposeSpec sp' := by
  constructor
  · rw [encodeSpec_eq sp, encodeSpec_eq sp', encodeSpec_binary_eq_flatten, encodeSpec_binary_eq_flatten, ← hf,
      List.map_congr_left h]
  · rw [decomposeSpec_eq_map_layout, decomposeSpec_eq_map_layout, ← hf]
    exact List.map_congr_left fun g hg => congrArg (record (groupName g) g.1.2) (h g hg)

/-- Settles O39: the used components supply every group of the layout. -/
theorem unusedInputsAreInvisible : Obligations.UnusedInputsAreInvisible := by
  intro sp sp' hf hsame
  refine results_of_groupString_eq hf fun g hg => ?_
  exact groupString_congr (renderedComponent_congr hf (hsame g.2 (List.of_mem_zip hg).2))

/-- Settles O38: the rows of S and B, and those of U and J, are one row (decision D1), and so are the renderings. -/
theorem sAndBAndUAndJCoincide : Obligations.SAndBAndUAndJCoincide :=
  fun _ => ⟨rfl, rfl, rfl, rfl⟩

/-! The Encoder. -/

/-- Settles O28: the outcome is the encoding of the request, and format B lays the row of format S (decision D1). -/
theorem encodeBConcatenatesItsRow : Obligations.EncodeBConcatenatesItsRow := by
  intro a s h
  obtain ⟨sp, t, hf, hc, hx, hans⟩ := exec_encode_answers .B s h
  refine ⟨sp, t, encodeSpec sp, hc, hx, hans, ?_, encodeSpec_hex sp⟩
  simp only [encodeSpec_binary, hf, rawB, immHi, immLo, render_im_eq_low hf]
  rfl

/-- Settles O30: the outcome is the encoding of the request, and format J lays the row of format U (decision D1). -/
theorem encodeJConcatenatesItsRow : Obligations.EncodeJConcatenatesItsRow := by
  intro a s h
  obtain ⟨sp, t, hf, hc, hx, hans⟩ := exec_encode_answers .J s h
  refine ⟨sp, t, encodeSpec sp, hc, hx, hans, ?_, encodeSpec_hex sp⟩
  simp only [encodeSpec_binary, hf, rawJ, render_im_eq_low hf]
  rfl

theorem val_reg5_eq_registerNumber (r : Option (Fin 32)) : val (reg5 r) = registerNumber r := by
  rw [val_reg5]; cases r <;> rfl

/-- The values of the rendered inputs. -/
theorem val_render (sp : InstructionSpec) :
    val (render sp).op7 = val sp.opcode % 2 ^ 7 ∧ val (render sp).f3 = val sp.funct3 % 2 ^ 3 ∧
    val (render sp).f7 = val sp.funct7 % 2 ^ 7 ∧ val (render sp).r1 = registerNumber sp.rs1 ∧
    val (render sp).r2 = registerNumber sp.rs2 ∧ val (render sp).rd5 = registerNumber sp.rd :=
  ⟨val_normalise .., val_normalise .., val_normalise .., val_reg5_eq_registerNumber _, val_reg5_eq_registerNumber _,
    val_reg5_eq_registerNumber _⟩

theorem val_render_im {sp : InstructionSpec} {f : InstructionFormat} (h : sp.format = f) :
    val (render sp).im = (sp.immediate % ((2 ^ immediateWidth f : Nat) : Int)).toNat := by
  rw [render_im_eq_low h, val_low_toNat]

/-- The value of the row of formats S and B. -/
theorem val_rawS {sp : InstructionSpec} (h : (render sp).im.length = 12) : val (rawS (render sp)) =
    val (render sp).im / 32 * 2 ^ 25 + val (render sp).r2 * 2 ^ 20 + val (render sp).r1 * 2 ^ 15
      + val (render sp).f3 * 2 ^ 12 + val (render sp).im % 32 * 2 ^ 7 + val (render sp).op7 := by
  simp only [rawS, val_append, val_immHi h, val_immLo h, immLo_length h, render_r2_length, render_r1_length,
    render_f3_length, render_op7_length]
  ring

/-- The value of the row of formats U and J. -/
theorem val_rawU (sp : InstructionSpec) : val (rawU (render sp)) =
    val (render sp).im * 2 ^ 12 + val (render sp).rd5 * 2 ^ 7 + val (render sp).op7 := by
  simp only [rawU, val_append, render_rd5_length, render_op7_length]
  ring

/-- The value of the row of format I. -/
theorem val_rawI (sp : InstructionSpec) : val (rawI (render sp)) =
    val (render sp).im * 2 ^ 20 + val (render sp).r1 * 2 ^ 15 + val (render sp).f3 * 2 ^ 12
      + val (render sp).rd5 * 2 ^ 7 + val (render sp).op7 := by
  simp only [rawI, val_append, render_r1_length, render_f3_length, render_rd5_length, render_op7_length]
  ring

/-- The value of the row of format R. -/
theorem val_rawR (sp : InstructionSpec) : val (rawR (render sp)) =
    val (render sp).f7 * 2 ^ 25 + val (render sp).r2 * 2 ^ 20 + val (render sp).r1 * 2 ^ 15
      + val (render sp).f3 * 2 ^ 12 + val (render sp).rd5 * 2 ^ 7 + val (render sp).op7 := by
  simp only [rawR, val_append, render_r2_length, render_r1_length, render_f3_length, render_rd5_length,
    render_op7_length]
  ring

/-- Settles O31: the value of each row, with the values of the rendered inputs put in. -/
theorem wordIsItsArithmeticForm : Obligations.WordIsItsArithmeticForm := by
  intro sp
  obtain ⟨hop, h3, h7, h1, h2, hd⟩ := val_render sp
  have hl := render_im_length sp
  rw [encodeSpec_binary, arithmeticWord]
  cases hf : sp.format <;> have him := val_render_im hf <;> rw [hf] at hl
  case R => simp only [val_rawR, hop, h3, h7, h1, h2, hd]
  case I => simp only [val_rawI, hop, h3, h1, hd, him]; rfl
  case S => simp only [val_rawS hl, hop, h3, h1, h2, him]; rfl
  case B => simp only [rawB_eq_rawS, val_rawS hl, hop, h3, h1, h2, him]; rfl
  case U => simp only [val_rawU, hop, hd, him]; rfl
  case J => simp only [rawJ_eq_rawU, val_rawU, hop, hd, him]; rfl

/-- R77: digit j of a word of 32 characters renders its four characters from 4j on. -/
theorem hexNibble_val {b : BitString} (h : b.length = 32) {j : Nat} (hj : j < 8) :
    hexNibble (val b) j = val (slice b (4 * j) 4) := by
  rw [val_slice (by omega), hexNibble, h, show 32 - 4 * j - 4 = 28 - 4 * j by omega]
  rfl

/-- Settles O35: the digits stand after the two characters `0x`. -/
theorem hexDigitRendersFourCharacters : Obligations.HexDigitRendersFourCharacters := by
  intro sp j hj
  rw [encodeSpec_hex, ← hexNibble_val (binaryHas32Characters sp) hj, Nat.add_comm]
  simp [hexOf, hj]

/-! Truncation of the immediate (R84). -/

theorem low_add_mul (w : Nat) (v k : Int) : low w (v + k * ((2 ^ w : Nat) : Int)) = low w v := by
  rw [low, Int.add_mul_emod_self_right, low]

/-- Every character of the word stands in some group of the layout. -/
theorem exists_group_of_lt (f : InstructionFormat) {n : Nat} (h : n < 32) :
    ∃ g ∈ layout f, g.1.1 ≤ n ∧ n < g.1.1 + g.1.2 := by
  revert n; cases f <;> decide

/-- The slices of the groups that the immediate supplies are the immediate slices (R83). -/
theorem mem_immediateSlices {f : InstructionFormat} {g : (Nat × Nat) × Component} (h : g ∈ layout f)
    (hc : g.2 = .immediate) : g.1 ∈ immediateSlices f := by
  revert g; cases f <;> decide

theorem inSlices_of_mem {gs : List (Nat × Nat)} {g : Nat × Nat} {n : Nat} (hg : g ∈ gs) (h : g.1 ≤ n)
    (h' : n < g.1 + g.2) : inSlices gs n = true :=
  List.any_eq_true.mpr ⟨g, hg, by simp [h, h']⟩

theorem getElem?_slice {b : BitString} {start len n : Nat} (h : start ≤ n) (h' : n < start + len) :
    (slice b start len)[n - start]? = b[n]? := by
  rw [slice, List.getElem?_take_of_lt (by omega), List.getElem?_drop, Nat.add_sub_cancel' h]

theorem sameComponent_with_immediate (sp : InstructionSpec) (v : Int) {c : Component} (hc : c ≠ .immediate) :
    sameComponent { sp with immediate := v } sp c := by
  cases c <;> simp_all [sameComponent]

/-- Settles O37: immediates that agree modulo the width render the same; a character outside the immediate slices stands in
a group that another component supplies. -/
theorem immediateIsTruncated : Obligations.ImmediateIsTruncated := by
  intro sp v k
  refine ⟨And.left (results_of_render_eq (by rfl) ?_), fun n hn => ?_⟩
  · simp only [render, immbits, low_add_mul]
  by_cases hlt : n < 32
  · obtain ⟨g, hg, hle, hlt'⟩ := exists_group_of_lt sp.format hlt
    have hc : g.2 ≠ .immediate := fun hc => by
      simp [inSlices_of_mem (mem_immediateSlices hg hc) hle hlt'] at hn
    have hs := fieldDependsOnItsComponentAlone { sp with immediate := v } sp rfl g hg
      (sameComponent_with_immediate sp v hc)
    rw [← getElem?_slice hle hlt', hs, getElem?_slice hle hlt']
  · have hlen := binaryHas32Characters
    rw [List.getElem?_eq_none (by rw [hlen]; omega), List.getElem?_eq_none (by rw [hlen]; omega)]

/-! What the word says of the inputs (R56 (b)). -/

/-- Equal hexadecimal strings come from equal words. -/
theorem binary_eq_of_hex_eq {sp sp' : InstructionSpec} (h : (encodeSpec sp).hex = (encodeSpec sp').hex) :
    (encodeSpec sp).binary = (encodeSpec sp').binary := by
  have hval : some (val (encodeSpec sp).binary) = some (val (encodeSpec sp').binary) := by
    rw [← hexAndBinaryDenoteOneWord, ← hexAndBinaryDenoteOneWord, h]
  exact eq_of_val_eq (by rw [binaryHas32Characters, binaryHas32Characters]) (Option.some.inj hval)

/-- An immediate of 12 characters is known from its two groups. -/
theorem eq_of_immHi_eq_of_immLo_eq {im im' : BitString} (hl : im.length = 12) (hl' : im'.length = 12)
    (hhi : immHi im = immHi im') (hlo : immLo im = immLo im') : im = im' := by
  rw [← immHi_append_immLo hl, ← immHi_append_immLo hl', hhi, hlo]

/-- A component that the format uses is known from the strings of the layout's groups: one group is its rendering, or two
are the halves of the immediate. -/
theorem renderedComponent_eq_of_groupString_eq {x x' : Rendered} {f : InstructionFormat}
    (hl : x.im.length = immediateWidth f) (hl' : x'.im.length = immediateWidth f)
    (h : ∀ g ∈ layout f, groupString x g = groupString x' g) {c : Component} (hc : c ∈ fieldSources f) :
    renderedComponent x c = renderedComponent x' c := by
  have hsplit := eq_of_immHi_eq_of_immLo_eq (im := x.im) (im' := x'.im)
  revert c
  cases f <;> simp_all [layout, fieldSlices, fieldSources, groupString, renderedComponent, immediateWidth]

/-- Settles O42: one hexadecimal string is one word, whose slices are the strings of the groups. -/
theorem wordFixesTheRenderedInputs : Obligations.WordFixesTheRenderedInputs := by
  intro sp sp' hf hhex c hc
  refine renderedComponent_eq_of_groupString_eq (render_im_length sp) (hf ▸ render_im_length sp') (fun g hg => ?_) hc
  rw [← slice_eq_groupString hg, ← slice_eq_groupString (hf ▸ hg), binary_eq_of_hex_eq hhex]

/-! The Decomposer. -/

/-- Inside the contract, the DECOMPOSE row of every format completes, and its one new outcome is the records of the layout's
groups, of the request the operands make. -/
theorem exec_decompose_answers (f : InstructionFormat) (a : Operands) (s : State) (h : a.wf = true) :
    ∃ (sp : InstructionSpec) (t : State), contract f a = .ok sp ∧ exec (instrOf .decompose f a) s = .next t ∧
      s.Answered t (.fields ((layout f).map (groupRecord (render { sp with format := f })))) := by
  obtain ⟨sp, hc⟩ := contract_of_wf f h
  obtain rfl := (contract_ok hc).1
  have hx := exec_instrOf_of_ok .decompose s hc
  rw [answerFor, decomposeSpec_eq_map_layout] at hx
  exact ⟨sp, _, hc, hx, deliver_answered ..⟩

/-- Settles O49: the records are those of the layout of format R. -/
theorem decomposeRListsItsFields : Obligations.DecomposeRListsItsFields := exec_decompose_answers .R

/-- Settles O50: the records are those of the layout of format I. -/
theorem decomposeIListsItsFields : Obligations.DecomposeIListsItsFields := exec_decompose_answers .I

/-- Settles O51: the records are those of the layout of format S. -/
theorem decomposeSListsItsFields : Obligations.DecomposeSListsItsFields := exec_decompose_answers .S

/-- Settles O52: the records are those of the layout of format B. -/
theorem decomposeBListsItsFields : Obligations.DecomposeBListsItsFields := exec_decompose_answers .B

/-- Settles O53: the records are those of the layout of format U. -/
theorem decomposeUListsItsFields : Obligations.DecomposeUListsItsFields := exec_decompose_answers .U

/-- Settles O54: the records are those of the layout of format J. -/
theorem decomposeJListsItsFields : Obligations.DecomposeJListsItsFields := exec_decompose_answers .J

/-- Settles O55: both calls deliver the results of one request; its record values and its word are the strings of the
layout's groups. -/
theorem decompositionSpellsTheWord : Obligations.DecompositionSpellsTheWord := by
  intro f a s h
  obtain ⟨sp, hc⟩ := contract_of_wf f h
  refine ⟨_, _, encodeSpec sp, decomposeSpec sp, exec_instrOf_of_ok .encode s hc, deliver_answered ..,
    exec_instrOf_of_ok .decompose s hc, deliver_answered .., ?_, rfl⟩
  rw [map_value_decomposeSpec, encodeSpec_binary_eq_flatten]

/-- Settles O58: names, widths and categories are those of the layout's groups, and a record takes its category from its
name. -/
theorem shapeDependsOnTheFormatAlone : Obligations.ShapeDependsOnTheFormatAlone := by
  intro sp sp' hf
  rw [decomposeSpec_eq_map_layout, decomposeSpec_eq_map_layout, hf, List.map_map, List.map_map]
  refine ⟨rfl, fun fd hfd => ?_⟩
  obtain ⟨g, -, rfl⟩ := List.mem_map.mp hfd
  rfl

end Sys2Proof.Proofs
end

section
/-! Proofs of the ports: decoding and encoding of requests (R24, R26, R59, R110), the block as a Boolean function of its
input ports (R90, R104, R122), and the invariant of the boundary. -/

namespace Sys2Proof.Proofs

open Sys2Proof.Machine Sys2Proof.Laws

/-! Selecting the row (R59, R61, R110). -/

theorem formatOfTag_tagOf (f : InstructionFormat) : formatOfTag (tagOf f) = .ok f := by cases f <;> rfl

theorem formatOfTag_of_ne {tag : Char} (h : ∀ f, tag ≠ tagOf f) : formatOfTag tag = .error .badFormatTag := by
  have hR : tag ≠ 'R' := h .R
  have hI : tag ≠ 'I' := h .I
  have hS : tag ≠ 'S' := h .S
  have hB : tag ≠ 'B' := h .B
  have hU : tag ≠ 'U' := h .U
  have hJ : tag ≠ 'J' := h .J
  simp only [formatOfTag, hR, hI, hS, hB, hU, hJ, if_false]

theorem decode_abstract_of_ok (op : Operation) {tag : Char} {f : InstructionFormat} (a : Operands)
    (h : formatOfTag tag = .ok f) : decode (.abstract op tag a) = .ok (instrOf op f a) := by
  simp only [decode, h]

theorem decode_abstract_of_error (op : Operation) {tag : Char} {e : RefuseReason} (a : Operands)
    (h : formatOfTag tag = .error e) : decode (.abstract op tag a) = .error e := by
  simp only [decode, h]

theorem decode_ports_of_ok (op : Operation) {p : PortInputs} {f : InstructionFormat} (h : formatOfCode p.fmt = .ok f) :
    decode (.ports op p) = .ok (instrOf op f (operandsOfPorts p)) := by
  simp only [decode, h]

theorem decode_ports_of_error (op : Operation) {p : PortInputs} {e : RefuseReason} (h : formatOfCode p.fmt = .error e) :
    decode (.ports op p) = .error e := by
  simp only [decode, h]

/-- What a request at the ports decodes to, if it does. -/
theorem decode_ports_ok {op : Operation} {p : PortInputs} {i : Instr} (h : decode (.ports op p) = .ok i) :
    ∃ f, formatOfCode p.fmt = .ok f ∧ i = instrOf op f (operandsOfPorts p) := by
  cases hf : formatOfCode p.fmt with
  | ok f => exact ⟨f, rfl, Except.ok.inj (h.symm.trans (decode_ports_of_ok op hf))⟩
  | error e => rw [decode_ports_of_error op hf] at h; cases h

theorem operandsOfPorts_wf (p : PortInputs) : (operandsOfPorts p).wf = true :=
  wf_of_contract (contract_operandsOfPorts .R p)

/-- Settles O12: a code of a format selects its row, and levels are inside the contract; no other code is a format's. -/
theorem formatCodesSelectTheRow : Obligations.FormatCodesSelectTheRow := by
  intro op p
  refine ⟨fun f hf => ?_, fun h => decode_ports_of_error op (formatOfCode_of_ge h)⟩
  have hd := decode_ports_of_ok op (p := p) (f := f) (by rw [hf, formatOfCode_codeOf])
  exact ⟨_, hd, by simp, by simp, by simp [Instr.wf, operandsOfPorts_wf]⟩

/-- Settles O13: the six tags select their formats, and the test of the tags fails on every other. -/
theorem onlyTheSixTagsAreFormats : Obligations.OnlyTheSixTagsAreFormats := by
  intro op tag a
  refine ⟨fun f hf => ?_, fun h => decode_abstract_of_error op a (formatOfTag_of_ne h)⟩
  exact decode_abstract_of_ok op a (hf ▸ formatOfTag_tagOf f)

/-- Settles O11: each vector's levels are literals, which the decoder evaluates. -/
theorem portVectorsDecode : Obligations.PortVectorsDecode :=
  ⟨rfl, rfl, rfl, rfl, rfl, rfl⟩

/-! Round trips between operands and levels (R24, R26). -/

/-- What it means for operands to fit the ports. -/
theorem fitsPorts_iff (a : Operands) : a.fitsPorts = true ↔ a.wf = true ∧ a.opcode.length = 7 ∧ a.funct3.length = 3 ∧
    a.funct7.length = 7 ∧ ∃ v, a.immediate = .integer v ∧ -2 ^ 31 ≤ v ∧ v < 2 ^ 31 := by
  cases hi : a.immediate <;> simp [Operands.fitsPorts, hi, and_assoc]

/-- What it means for operands to be inside the contract. -/
theorem wf_iff (a : Operands) : a.wf = true ↔
    (registerInRange a.rs1 = true ∧ registerInRange a.rs2 = true ∧ registerInRange a.rd = true) ∧
    (bitCharsOnly a.opcode = true ∧ bitCharsOnly a.funct3 = true ∧ bitCharsOnly a.funct7 = true) ∧
    a.immediate.isInteger = true := by
  simp [Operands.wf, Operands.registersInRange, Operands.bitStringsBinary, and_assoc]

theorem charsOfPort_length {w : Nat} (x : BitVec w) : (charsOfPort x).length = w := by
  simp [charsOfPort]

theorem toInt_portOfImmediate {v : Int} (h : -2 ^ 31 ≤ v) (h' : v < 2 ^ 31) :
    (portOfImmediate (.integer v)).toInt = v := by
  rw [portOfImmediate, BitVec.toInt_ofInt]
  exact Int.bmod_eq_of_le (by omega) (by omega)

/-- Operands that fit the ports are what their image carries. -/
theorem operandsOfPorts_portImage (f : InstructionFormat) {a : Operands} (h : a.fitsPorts = true) :
    operandsOfPorts (portImage f a) = a := by
  obtain ⟨hwf, hop, h3, h7, v, hi, hv, hv'⟩ := (fitsPorts_iff a).mp h
  obtain ⟨⟨hr1, hr2, hrd⟩, ⟨hb, hb3, hb7⟩, -⟩ := (wf_iff a).mp hwf
  simp only [operandsOfPorts, portImage, slotOfPorts_portOfSlot hr1, slotOfPorts_portOfSlot hr2,
    slotOfPorts_portOfSlot hrd, charsOfPort_portOfChars hb hop, charsOfPort_portOfChars hb3 h3,
    charsOfPort_portOfChars hb7 h7, hi, toInt_portOfImmediate hv hv']
  rw [← hi]

/-- An instruction's image on the ports decodes to the same row. -/
theorem decode_ports_encode (i : Instr) :
    decode (.ports i.operation (encode i)) = .ok (instrOf i.operation i.format (operandsOfPorts (encode i))) :=
  decode_ports_of_ok _ (formatOfCode_codeOf i.format)

/-- Settles O14: the image's code selects the row, and the image carries the operands unchanged. -/
theorem decodeEncodeRoundTrip : Obligations.DecodeEncodeRoundTrip := by
  intro i h
  rw [decode_ports_encode, encode, operandsOfPorts_portImage _ h, instrOf_self]

/-- What the ports carry fits the ports. -/
theorem operandsOfPorts_fitsPorts (p : PortInputs) : (operandsOfPorts p).fitsPorts = true := by
  have hlo := p.imm.le_toInt
  have hhi := p.imm.toInt_lt
  exact (fitsPorts_iff _).mpr ⟨operandsOfPorts_wf p, charsOfPort_length _, charsOfPort_length _, charsOfPort_length _,
    p.imm.toInt, rfl, hlo, hhi⟩

theorem slotOfPorts_isSome (present : Bool) (n : BitVec 5) : (slotOfPorts present n).isSome = present := by
  cases present <;> rfl

/-- The image of what the ports carry is what stands on them, an ignored index read as 0. -/
theorem portImage_operandsOfPorts {f : InstructionFormat} {p : PortInputs} (h : p.fmt = codeOf f) :
    portImage f (operandsOfPorts p) = p.canonical := by
  simp only [portImage, operandsOfPorts, PortInputs.canonical, slotOfPorts_isSome, portOfSlot_slotOfPorts,
    portOfChars_charsOfPort, portOfImmediate, BitVec.ofInt_toInt, h]

/-- Settles O15: the operands are what the ports carry, and the row's code is the level on `fmt`. -/
theorem encodeDecodeKeepsTheLevels : Obligations.EncodeDecodeKeepsTheLevels := by
  intro op p i h
  obtain ⟨f, hf, rfl⟩ := decode_ports_ok h
  refine ⟨?_, instrOf_operation .., ?_⟩
  · rw [encode, instrOf_format, instrOf_operands, portImage_operandsOfPorts (codeOf_of_formatOfCode hf)]
  · rw [instrOf_operands, operandsOfPorts_fitsPorts]

/-! The port image renders as the request does (R26). -/

/-- A register slot goes through its ports unchanged. -/
theorem slot_through_ports {r : Option Int} {q : Option (Fin 32)} (h : registerReference r = some q) :
    (if r.isSome then some (portOfSlot r).toFin else none) = q := by
  have hr : registerInRange r = true := by rw [← registerReference_isSome, h, Option.isSome_some]
  apply Option.some.inj
  rw [← registerReference_slotOfPorts, slotOfPorts_portOfSlot hr, h]

/-- A bit string of any length renders the same after its port of width `w`. -/
theorem normalise_through_port {w : Nat} {cs : List Char} {s : BitString} (h : bitsOfChars cs = some s) :
    normalise w (bin w (portOfChars w cs).toNat) = normalise w s :=
  normalise_eq_of_val_eq (by simp [portOfChars, bitsOrZero_of_bitsOfChars h])

/-- Reading a 32-bit level as a signed number changes no residue modulo a smaller power of two. -/
theorem bmod_emod_two_pow {w : Nat} (hw : w ≤ 32) (v : Int) :
    v.bmod (2 ^ 32) % ((2 ^ w : Nat) : Int) = v % ((2 ^ w : Nat) : Int) :=
  have hdvd : ((2 ^ w : Nat) : Int) ∣ ((2 ^ 32 : Nat) : Int) := Int.natCast_dvd_natCast.mpr (Nat.pow_dvd_pow 2 hw)
  Int.modEq_iff_dvd.mpr (hdvd.trans Int.dvd_self_sub_bmod)

/-- An immediate of any magnitude renders the same after its port, which is wider than every rendering. -/
theorem immbits_through_port (f : InstructionFormat) (v : Int) :
    immbits f (portOfImmediate (.integer v)).toInt = immbits f v := by
  have hw : immediateWidth f ≤ 32 := by cases f <;> decide
  rw [portOfImmediate, BitVec.toInt_ofInt, immbits, immbits, low, low, bmod_emod_two_pow hw]

/-- The port image of a request inside the contract renders as the request. -/
theorem render_specOfPorts_portImage {f : InstructionFormat} {a : Operands} {sp : InstructionSpec}
    (h : contract f a = .ok sp) : render (specOfPorts f (portImage f a)) = render sp := by
  obtain ⟨hf, h1, h2, hd, hop, h3, h7, hi⟩ := contract_ok h
  simp only [render, specOfPorts, portImage, slot_through_ports h1, slot_through_ports h2, slot_through_ports hd,
    normalise_through_port hop, normalise_through_port h3, normalise_through_port h7, hi, immbits_through_port, hf]

/-- The port image of a request inside the contract has the results of the request. -/
theorem results_specOfPorts_portImage {f : InstructionFormat} {a : Operands} {sp : InstructionSpec}
    (h : contract f a = .ok sp) :
    encodeSpec (specOfPorts f (portImage f a)) = encodeSpec sp ∧
      decomposeSpec (specOfPorts f (portImage f a)) = decomposeSpec sp :=
  results_of_render_eq (contract_ok h).1.symm (render_specOfPorts_portImage h)

/-- Settles O16: the image's request has the results of the instruction's request, and a delivery depends on the results
alone. -/
theorem portImageLosesNothing : Obligations.PortImageLosesNothing := by
  intro i h
  obtain ⟨sp, hc⟩ := contract_of_wf i.format h
  obtain ⟨henc, hdec⟩ := results_specOfPorts_portImage hc
  refine ⟨_, decode_ports_encode i, instrOf_format .., instrOf_operation .., fun s => ?_⟩
  have hj := contract_operandsOfPorts i.format (encode i)
  rw [exec_of_ok s hc, exec_instrOf_of_ok i.operation s hj]
  simp only [encode, State.deliver, answerFor, henc, hdec]

/-! The block as a Boolean function of its input ports (R90, R104, R122). -/

theorem registerNumber_gated (present : Bool) (n : BitVec 5) :
    registerNumber (if present then some n.toFin else none) = (gated present n).toNat := by
  cases present <;> rfl

/-- The residue of the immediate port, read signed, is that of its level. -/
theorem toNat_toInt_emod {w : Nat} (hw : w ≤ 32) (x : BitVec 32) :
    (x.toInt % ((2 ^ w : Nat) : Int)).toNat = x.toNat % 2 ^ w := by
  rw [BitVec.toInt_eq_toNat_bmod, bmod_emod_two_pow hw]
  exact congrArg Int.toNat (Int.natCast_emod ..).symm

/-- The word of rule R90 is the arithmetic form of the request that the levels make. -/
theorem arithmeticWord_specOfPorts (f : InstructionFormat) (p : PortInputs) :
    arithmeticWord (specOfPorts f p) = (portWord f p).toNat := by
  have h12 : (p.imm.toInt % 4096).toNat = p.imm.toNat % 4096 := toNat_toInt_emod (w := 12) (by decide) p.imm
  have h20 : (p.imm.toInt % 1048576).toNat = p.imm.toNat % 1048576 := toNat_toInt_emod (w := 20) (by decide) p.imm
  have hop := p.opcode.isLt
  have h3 := p.funct3.isLt
  have h7 := p.funct7.isLt
  rw [portWord_toNat]
  cases f <;> simp only [arithmeticWord, specOfPorts, registerNumber_gated, val_bin, h12, h20, Nat.mod_mod] <;> omega

/-- The binary string of the request that the levels make denotes the word of rule R90. -/
theorem val_encodeSpec_specOfPorts (f : InstructionFormat) (p : PortInputs) :
    val (encodeSpec (specOfPorts f p)).binary = (portWord f p).toNat :=
  (wordIsItsArithmeticForm _).trans (arithmeticWord_specOfPorts f p)

theorem ascii_charOfBit (b : Bool) : ascii (charOfBit b) = if b then 0x31 else 0x30 := by cases b <;> rfl

theorem ascii_hexDigit {n : Nat} (h : n < 16) : ascii (hexDigit n) = hexByte (BitVec.ofNat 4 n) := by
  revert n; decide

/-- A word's binary string, character by character of the word. -/
theorem eq_map_getLsbD {b : BitString} {x : Word} (hl : b.length = 32) (hv : val b = x.toNat) :
    b = (List.range 32).map fun k => x.getLsbD (31 - k) := by
  refine List.ext_getElem? fun k => ?_
  by_cases hk : k < 32
  · rw [getElem?_eq_testBit (by omega), hv, hl]
    simp [hk, BitVec.getLsbD]
  · rw [List.getElem?_eq_none (by omega), List.getElem?_eq_none (by simpa using hk)]

/-- The characters on the `binary` port. -/
theorem binary_on_port {b : BitString} {x : Word} (hl : b.length = 32) (hv : val b = x.toNat) :
    (b.map fun c => ascii (charOfBit c)) = (List.range 32).map fun k => if x.getLsbD (31 - k) then 0x31 else 0x30 := by
  rw [eq_map_getLsbD hl hv, List.map_map]
  exact List.map_congr_left fun k _ => ascii_charOfBit _

theorem ofNat_hexNibble {x : Word} (j : Nat) :
    BitVec.ofNat 4 (hexNibble x.toNat j) = x.extractLsb' (28 - 4 * j) 4 := by
  apply BitVec.eq_of_toNat_eq
  simp [hexNibble, Nat.shiftRight_eq_div_pow]

/-- The characters on the `hex` port. -/
theorem hex_on_port {b : BitString} {x : Word} (hv : val b = x.toNat) :
    (hexOf b).map ascii = 0x30 :: 0x78 :: (List.range 8).map fun j => hexByte (x.extractLsb' (28 - 4 * j) 4) := by
  have hdigit (j : Nat) : ascii (hexDigit (hexNibble (val b) j)) = hexByte (x.extractLsb' (28 - 4 * j) 4) := by
    rw [ascii_hexDigit (hexNibble_lt ..), hv, ofNat_hexNibble]
  simp only [hexOf, List.map_cons, List.map_map]
  exact congrArg (fun ds => 0x30 :: 0x78 :: ds) (List.map_congr_left fun j _ => hdigit j)

/-- A field group of the layout as the hardware form has it (R104). -/
def groupOnPort (g : (Nat × Nat) × Component) : FieldGroup where
  start    := g.1.1
  len      := g.1.2
  category := (groupName g).category.code
  nameId   := (groupName g).id

theorem groups_eq_map_layout (f : InstructionFormat) : groups f = (layout f).map groupOnPort := by
  cases f <;> rfl

theorem end_le_of_mem_layout {f : InstructionFormat} {g : (Nat × Nat) × Component} (h : g ∈ layout f) :
    g.1.1 + g.1.2 ≤ 32 := by
  revert g; cases f <;> decide

/-- The record of a group stands on its slot as the slice of the word. -/
theorem slotOfField_groupRecord {sp : InstructionSpec} {x : Word} (hv : val (encodeSpec sp).binary = x.toNat)
    {g : (Nat × Nat) × Component} (hg : g ∈ layout sp.format) :
    slotOfField (groupRecord (render sp) g) = slotOfGroup x (groupOnPort g) := by
  have hle := end_le_of_mem_layout hg
  have hval : val (groupString (render sp) g) = x.toNat / 2 ^ (32 - g.1.1 - g.1.2) % 2 ^ g.1.2 := by
    rw [← slice_eq_groupString hg, val_slice (by rwa [binaryHas32Characters]), hv, binaryHas32Characters]
  have hvalue : BitVec.ofNat 20 (val (groupString (render sp) g)) =
      (x.extractLsb' (32 - g.1.1 - g.1.2) g.1.2).setWidth 20 := by
    apply BitVec.eq_of_toNat_eq
    simp [hval, Nat.shiftRight_eq_div_pow]
  simp only [slotOfField, groupRecord, record, slotOfGroup, groupOnPort, hvalue]

/-- The slots on the `fields` port. -/
theorem fields_on_port {sp : InstructionSpec} {x : Word} (hv : val (encodeSpec sp).binary = x.toNat) :
    (decomposeSpec sp).map slotOfField = (groups sp.format).map (slotOfGroup x) := by
  rw [decomposeSpec_eq_map_layout, groups_eq_map_layout, List.map_map, List.map_map]
  exact List.map_congr_left fun g hg => slotOfField_groupRecord hv hg

theorem nfields_on_port (sp : InstructionSpec) : (decomposeSpec sp).length = (groups sp.format).length := by
  rw [decomposeSpec_eq_map_layout, groups_eq_map_layout, List.length_map, List.length_map]

/-- The hardware form of a format code is the image of both results of the request that the levels make. -/
theorem blockOutputs_of_ok {f : InstructionFormat} {p : PortInputs} (h : formatOfCode p.fmt = .ok f) :
    blockOutputs p = some (outputImage (encodeSpec (specOfPorts f p)) (decomposeSpec (specOfPorts f p))) := by
  have hv := val_encodeSpec_specOfPorts f p
  have hword : BitVec.ofNat 32 (val (encodeSpec (specOfPorts f p)).binary) = portWord f p := by
    rw [hv, BitVec.ofNat_toNat, BitVec.setWidth_eq]
  simp only [blockOutputs, h, outputImage, hword, binary_on_port (binaryHas32Characters _) hv, encodeSpec_hex,
    hex_on_port hv, fields_on_port hv, nfields_on_port]
  rfl

theorem blockOutputs_of_error {p : PortInputs} {e : RefuseReason} (h : formatOfCode p.fmt = .error e) :
    blockOutputs p = none := by
  simp only [blockOutputs, h]

/-- Settles O59: an instruction from the ports delivers both results of the request that the levels make, whose image is
the hardware form; a code that is refused has no outputs. -/
theorem outputPortsAreTheBlockFunction : Obligations.OutputPortsAreTheBlockFunction := by
  intro op p s
  refine ⟨fun i hd => ?_, fun e hd => ?_⟩
  · obtain ⟨f, hf, rfl⟩ := decode_ports_ok hd
    have hx := exec_instrOf_of_ok op s (contract_operandsOfPorts f p)
    exact ⟨_, _, hx, rfl, blockOutputs_of_ok hf⟩
  · cases hf : formatOfCode p.fmt with
    | ok f => rw [decode_ports_of_ok op hf] at hd; cases hd
    | error e' => exact blockOutputs_of_error hf

/-! The invariant of the boundary. -/

/-- At the ports, a request leaves the block's function of its levels on the outputs. -/
theorem outcomeOf_ports_outputs (op : Operation) (p : PortInputs) : (outcomeOf (.ports op p)).2 = blockOutputs p := by
  cases hf : formatOfCode p.fmt with
  | ok f =>
    have hc := contract_operandsOfPorts f p
    rw [outcomeOf_of_contract_ok (sp := specOfPorts f p) (decode_ports_of_ok op hf) (by simpa using hc),
      blockOutputs_of_ok hf]
  | error e => rw [outcomeOf_of_decode_error (decode_ports_of_error op hf), blockOutputs_of_error hf]

/-- At the abstract interface, a request leaves the block's function of its image on the outputs, and none where it has no
image. -/
theorem outcomeOf_abstract_outputs (op : Operation) (tag : Char) (a : Operands) :
    (outcomeOf (.abstract op tag a)).2 = (requestLevels (.abstract op tag a)).bind blockOutputs := by
  cases hf : formatOfTag tag with
  | error e =>
    rw [outcomeOf_of_decode_error (decode_abstract_of_error op a hf)]
    simp only [requestLevels, hf, Option.bind_none]
  | ok f =>
    have hd := decode_abstract_of_ok op a hf
    cases hwf : a.wf with
    | true =>
      obtain ⟨sp, hc⟩ := contract_of_wf f hwf
      obtain ⟨henc, hdec⟩ := results_specOfPorts_portImage hc
      have hblock := blockOutputs_of_ok (p := portImage f a) (formatOfCode_codeOf f)
      rw [outcomeOf_of_contract_ok (sp := sp) hd (by simpa using hc)]
      simp only [requestLevels, hf, hwf, if_true, Option.bind_some, hblock, henc, hdec]
    | false =>
      obtain ⟨e, hc⟩ := contract_of_not_wf f hwf
      rw [outcomeOf_of_contract_error (e := e) hd (by simpa using hc)]
      simp only [requestLevels, hf, hwf, Bool.false_eq_true, if_false, Option.bind_none]

/-- What a request leaves on the outputs is the block's function of what it puts on the inputs. -/
theorem outcomeOf_outputs (r : Request) : (outcomeOf r).2 = (requestLevels r).bind blockOutputs := by
  match r with
  | .abstract op tag a => exact outcomeOf_abstract_outputs op tag a
  | .ports op p => exact outcomeOf_ports_outputs op p

/-- Both results have their shape (R18, R81, R82, R101). -/
theorem answerFor_shaped (op : Operation) (sp : InstructionSpec) : (answerFor op sp).shaped = true := by
  cases op with
  | encode =>
    simp [answerFor, Answer.shaped, binaryHas32Characters sp, hexIsShaped sp, hexAndBinaryDenoteOneWord sp]
  | decompose =>
    obtain ⟨-, hsum, -⟩ := recordWidthsSumTo32 sp
    simp [answerFor, Answer.shaped, decomposeSpec_shaped, hsum]

/-- Every outcome has its shape. -/
theorem outcomeOf_shaped (r : Request) : (outcomeOf r).1.shaped = true := by
  cases hd : decode r with
  | error e => rw [outcomeOf_of_decode_error hd]; rfl
  | ok i =>
    cases hc : contract i.format i.operands with
    | error e => rw [outcomeOf_of_contract_error hd hc]; rfl
    | ok sp => rw [outcomeOf_of_contract_ok hd hc]; exact answerFor_shaped ..

/-- Settles O10: an idle step changes nothing; any other leaves the block's function of the request's levels and adds one
shaped outcome. -/
theorem stepKeepsTheInvariant : Obligations.StepKeepsTheInvariant := by
  intro s t hinv hstep
  have hshaped := And.right hinv
  cases hp : s.pending with
  | nil =>
    rw [step_of_idle hp] at hstep
    cases hstep
    exact hinv
  | cons r rest =>
    rw [step_of_pending hp] at hstep
    cases hstep
    refine ⟨outcomeOf_outputs r, fun x hx => ?_⟩
    obtain hx | hx := List.mem_append.mp hx
    · exact hshaped x hx
    · rw [List.mem_singleton.mp hx]
      exact outcomeOf_shaped r

/-! Words as requests (R56 (a), log entry 5). -/

/-- The immediate level whose rendering in a format spells the immediate slices of a word. -/
def immediateOfWord (f : InstructionFormat) (x : Word) : BitVec 32 :=
  match f with
  | .R => 0
  | .I => (x.extractLsb' 20 12).setWidth 32
  | .S | .B => (x.extractLsb' 25 7 ++ x.extractLsb' 7 5).setWidth 32
  | .U | .J => (x.extractLsb' 12 20).setWidth 32

/-- The levels that make a word in a format: each component where the format's row has it in the word. -/
def portsOfWord (f : InstructionFormat) (x : Word) : PortInputs :=
  { portsOfTableWord x with fmt := codeOf f, imm := immediateOfWord f x }

theorem portsOfWord_R (x : Word) : portsOfWord .R x = portsOfTableWord x := rfl

/-- The value of that level: the slices of the word, put together. -/
theorem immediateOfWord_toNat (f : InstructionFormat) (x : Word) :
    (immediateOfWord f x).toNat =
      match f with
      | .R => 0
      | .I => x.toNat / 2 ^ 20
      | .S | .B => x.toNat / 2 ^ 25 * 32 + x.toNat / 2 ^ 7 % 32
      | .U | .J => x.toNat / 2 ^ 12 := by
  have hx := x.isLt
  have hhi : x.toNat / 2 ^ 25 % 2 ^ 7 = x.toNat / 2 ^ 25 := Nat.mod_eq_of_lt (by omega)
  cases f
  case R => rfl
  all_goals
    simp only [immediateOfWord, BitVec.extractLsb'_toNat, BitVec.toNat_setWidth, toNat_append_add,
      Nat.shiftRight_eq_div_pow, hhi]
    omega

/-- The levels made of a word give the word. -/
theorem portWord_portsOfWord (f : InstructionFormat) (x : Word) : portWord f (portsOfWord f x) = x := by
  have hx := x.isLt
  apply BitVec.eq_of_toNat_eq
  rw [portWord_toNat]
  cases f <;>
    simp only [portsOfWord, portsOfTableWord, immediateOfWord_toNat, gated, if_true, BitVec.extractLsb'_toNat,
      Nat.shiftRight_eq_div_pow] <;> omega

theorem val_encodeSpec_portsOfWord (f : InstructionFormat) (x : Word) :
    val (encodeSpec (specOfPorts f (portsOfWord f x))).binary = x.toNat := by
  rw [val_encodeSpec_specOfPorts, portWord_portsOfWord]

/-- Settles O41: the request is read off the word, slice by slice. -/
theorem everyWordIsAnEncoding : Obligations.EveryWordIsAnEncoding :=
  fun f w => ⟨specOfPorts f (portsOfWord f w), rfl, val_encodeSpec_portsOfWord f w⟩

theorem requestOfTableWord_eq {w : Nat} (h : w < 2 ^ 32) :
    requestOfTableWord 32 w = .ports .encode (portsOfWord .R (BitVec.ofNat 32 w)) := by
  rw [requestOfTableWord, Nat.mod_eq_of_lt h, portsOfWord_R]

theorem decodeTableWord_of_ok {w : Nat} {i : Instr} (h : decode (requestOfTableWord 32 w) = .ok i) :
    decodeTableWord 32 w = some i := by
  simp only [decodeTableWord, h, Nat.le_refl, if_true]

/-- Settles O17: the table word's request is the format-R request read off the word. -/
theorem tableWordRunsFirst : Obligations.TableWordRunsFirst := by
  intro s w hw
  have hreq := requestOfTableWord_eq hw
  have hd := hreq ▸ decode_ports_of_ok .encode (p := portsOfWord .R (BitVec.ofNat 32 w)) (f := .R) rfl
  have hc := contract_operandsOfPorts .R (portsOfWord .R (BitVec.ofNat 32 w))
  obtain ⟨t, hstep, hpend, hout⟩ := step_takes_oldest (s.withFetchWord_pending 32 w)
  rw [outcomeOf_of_contract_ok hd hc] at hout
  refine ⟨instrOf .encode .R _, t, _, decodeTableWord_of_ok hd, rfl, rfl, hstep, hpend, hout, ?_⟩
  rw [val_encodeSpec_portsOfWord, BitVec.toNat_ofNat, Nat.mod_eq_of_lt hw]

end Sys2Proof.Proofs
end
